-- ==== Sys2Proof/Word.lean ====
section
/-! DEFINITION. The two word widths of RQ's ports (spec/20_memory.md R32). -/

namespace Sys2Proof

/-- A word of port `CMD`: 32 bits, bit 0 least significant (R5, R32). Header words, rate operands
(R52) and sample patterns (R56) are all of this width. -/
abbrev Word := BitVec 32

/-- A word of port `OUTP`: 16 bits (R32), also the width of an output sample (R60). -/
abbrev OutWord := BitVec 16

end Sys2Proof
end

