-- ==== Sys2Proof/Config.lean ====
section
/-! DEFINITION. The named parameters of spec/00_scope.md R4. All are constants of the spec except
`EMIT_EMPTY`, which the spec leaves OPEN (R104, D19). -/

namespace Sys2Proof.Config

/-- `SCALE`: the multiplier of the quantizer (R4). -/
abbrev scale : Int := 32767

/-- `QMIN`: the lower clip bound (R4). -/
abbrev qMin : Int := -32768

/-- `QMAX`: the upper clip bound (R4). -/
abbrev qMax : Int := 32767

/-- `IN_BITS`: the width of an input sample (R4). -/
abbrev inBits : Nat := 32

/-- `OUT_BITS`: the width of an output sample (R4). -/
abbrev outBits : Nat := 16

/-- `RATE_BITS`: the width of a rate operand (R4, R52). -/
abbrev rateBits : Nat := 32

/-- `LEN_BITS`: the width of the block-length field (R4, R51). -/
abbrev lenBits : Nat := 24

/-- `Q_NAN`: the quantizer's result for a NaN (R4, R93; the spec's decision D4). -/
abbrev qNan : Int := 0

/-- `EMIT_EMPTY`: whether a zero-length output block is handed to the sink (R104). OPEN in the spec,
which names `true` as a default and says that a model carries it as a parameter; it has no body
here, so that a claim holds for both settings.
DESIGN CHOICE (log entry 6), safe. -/
opaque emitEmpty : Bool

end Sys2Proof.Config
end

