-- ==== Sys2Proof/Syntax.lean ====
section
/-! DEFINITION. The command set: one constructor per row of spec/opcode_table.json (R53). -/

namespace Sys2Proof

/-- A command of RQ. -/
inductive Instr where
  /-- `CONFIG t` (R54, R70): `t` is the target-rate operand word `P[1]`. -/
  | config (t : Word)
  /-- `PROCESS r, X` (R55, R100): `r` is the native-rate operand word `P[1]`; `x` is the input block,
  the sample words `P[2]`, `P[3]`, … with the earliest sample first. -/
  | process (r : Word) (x : List Word)
  /-- `STOP` (R65, R72). -/
  | stop
deriving DecidableEq, Repr

end Sys2Proof
end

