-- ==== Sys2Proof/Decode.lean ====
section
/-! DEFINITION. From packets to commands and back (spec/30_encoding.md R50 to R55, R61 to R63, R65),
and how an opcode-table word is laid out as a packet. -/

namespace Sys2Proof

/-- Header field `op`, bits 31..24 (R51). -/
def headerOp (h : Word) : BitVec 8 := h.extractLsb' 24 8

/-- Header field `len`, bits 23..0 (R51). -/
def headerLen (h : Word) : BitVec 24 := h.extractLsb' 0 24

/-- Why a packet is illegal: the clauses of R62. No rule looks at which clause it was (R116), and where
two apply the one named first here is given (DESIGN CHOICE, log entry 11, safe). -/
inductive IllegalReason where
  /-- The packet has no words. -/
  | noWords
  /-- `op` is `0x00` or in `0x04 .. 0xFF`. -/
  | unassignedOpcode
  /-- `CONFIG` or `STOP` with a `len` that is not zero. -/
  | reservedLen
  /-- The word count is not the one the header gives. -/
  | wordCount
deriving DecidableEq, Repr

/-- The result of decoding a packet: a command, or `ILLEGAL` with the reason. -/
inductive Decoded where
  | command (i : Instr)
  | illegal (why : IllegalReason)
deriving DecidableEq, Repr

/-- `CONFIG` (R54): `len = 0` and exactly one word after the header. -/
def decodeConfig (len : BitVec 24) (operands : List Word) : Decoded :=
  if len = 0 then
    match operands with
    | [t] => .command (.config t)
    | _ => .illegal .wordCount
  else .illegal .reservedLen

/-- `PROCESS` (R55): the rate word, then exactly `len` sample words. -/
def decodeProcess (len : BitVec 24) (operands : List Word) : Decoded :=
  match operands with
  | r :: x => if x.length = len.toNat then .command (.process r x) else .illegal .wordCount
  | [] => .illegal .wordCount

/-- `STOP` (R65): `len = 0` and no word after the header. -/
def decodeStop (len : BitVec 24) (operands : List Word) : Decoded :=
  if len = 0 then
    match operands with
    | [] => .command .stop
    | _ => .illegal .wordCount
  else .illegal .reservedLen

/-- `decode` (R61): total on every packet, the same in every state. -/
def decode : List Word → Decoded
  | [] => .illegal .noWords
  | h :: operands =>
    if headerOp h = 0x01 then decodeConfig (headerLen h) operands
    else if headerOp h = 0x02 then decodeProcess (headerLen h) operands
    else if headerOp h = 0x03 then decodeStop (headerLen h) operands
    else .illegal .unassignedOpcode

/-- A header word `{op, len}`, `op` in the more significant position (R5, R51). -/
def header (op : BitVec 8) (len : BitVec 24) : Word := BitVec.ofNat 32 (op.toNat * 2 ^ 24 + len.toNat)

/-- The packet of a command (R54, R55, R65). The length field of `PROCESS` is 24 bits wide, so the
packet spells the command only where the command is well formed. -/
def encode : Instr → List Word
  | .config t => [header 0x01 0, t]
  | .process r x => header 0x02 (BitVec.ofNat 24 x.length) :: r :: x
  | .stop => [header 0x03 0]

/-- The length of a command, known from its header word (R63); 1 for a header that is no command's. -/
def packetLength (h : Word) : Nat :=
  if headerOp h = 0x01 then 2
  else if headerOp h = 0x02 then 2 + (headerLen h).toNat
  else 1

/-- The packet that an instruction of spec/opcode_table.json stands for when the table numbers its
`nbits` bits as the number `w`: word `k` is bits `32k+31 .. 32k`; where the header asks for more words
than `nbits` fills, the rest are zero (log entry 17). -/
def tableWords (nbits w : Nat) : List Word :=
  let v := w % 2 ^ nbits
  let count := max (max ((nbits + 31) / 32) 1) (packetLength (BitVec.ofNat 32 v))
  (List.range count).map fun k => BitVec.ofNat 32 (v >>> (32 * k))

/-- The command this decoder reads from an opcode-table word. -/
def decodeTableWord (nbits w : Nat) : Option Instr :=
  match decode (tableWords nbits w) with
  | .command i => some i
  | .illegal _ => none

end Sys2Proof
end

