-- ==== Sys2Proof/Machine/Arith.lean ====
section
/-! DEFINITION. The exact arithmetic of spec/00_scope.md R6 and R7: `round` and `clamp`, on rationals and
on the two infinities. -/

namespace Sys2Proof.Machine

/-- A number or one of the two infinities (R6, R7). -/
inductive Extended (α : Type) where
  | negInf
  | fin (x : α)
  | posInf
deriving DecidableEq, Repr

/-- The order of the extended rationals. -/
def Extended.le : Extended Rat → Extended Rat → Prop
  | .negInf, _ => True
  | _, .posInf => True
  | .fin x, .fin y => x ≤ y
  | _, _ => False

/-- A function of the finite values that leaves the infinities where they are, such as the product with
a positive number (R92). -/
def Extended.map {α β : Type} (f : α → β) : Extended α → Extended β
  | .negInf => .negInf
  | .fin x => .fin (f x)
  | .posInf => .posInf

/-- `round` (R6): round half up, computed exactly. -/
def roundHalfUp (x : Rat) : Int := (x + 1 / 2).floor

/-- `round` on the extended values: `round(+inf) = +inf`, `round(-inf) = -inf` (R6). -/
def Extended.round (x : Extended Rat) : Extended Int := x.map roundHalfUp

/-- `clamp(x, lo, hi)` for `lo <= hi` (R7). -/
def clamp (x lo hi : Int) : Int :=
  if x < lo then lo else if hi < x then hi else x

/-- `clamp` on the extended values: `clamp(+inf, lo, hi) = hi`, `clamp(-inf, lo, hi) = lo` (R7). -/
def Extended.clamp (x : Extended Int) (lo hi : Int) : Int :=
  match x with
  | .negInf => lo
  | .fin n => Machine.clamp n lo hi
  | .posInf => hi

end Sys2Proof.Machine
end

