-- ==== Sys2Proof/Machine/Operands.lean ====
section
/-! DEFINITION. How the words of a packet are read and written as numbers: the rate operand (R52), the
input sample (R56) and the output sample (R60). RQ has no other operand form, and no flag to compute
(R12). -/

namespace Sys2Proof.Machine

/-- A rate word: `sext_32`, two's complement (R52, R14). -/
abbrev rateOf (w : Word) : Int := w.toInt

/-- Sample field `s`, bit 31 (R56): true for negative. -/
def sampleSign (w : Word) : Bool := w.getLsbD 31

/-- Sample field `e`, bits 30..23: the exponent biased by 127 (R56). -/
def sampleExponent (w : Word) : Nat := (w.extractLsb' 23 8).toNat

/-- Sample field `f`, bits 22..0: the fraction (R56). -/
def sampleFraction (w : Word) : Nat := (w.extractLsb' 0 23).toNat

/-- The value of a sample pattern: NaN, or an extended rational (R56). -/
inductive SampleValue where
  | nan
  | number (x : Extended Rat)
deriving DecidableEq, Repr

/-- The rational `m * 2^k`, exactly. -/
def timesPowTwo (m k : Int) : Rat :=
  if 0 ≤ k then ((m * 2 ^ k.toNat : Int) : Rat) else mkRat m (2 ^ (-k).toNat)

/-- `(-1)^s * m` (R56). -/
def withSign (negative : Bool) (m : Nat) : Int := if negative then -(m : Int) else m

/-- `val(w)` (R56), class by class; quiet and signalling NaNs alike, and `-0` is the rational 0. -/
def sampleValue (w : Word) : SampleValue :=
  let s := sampleSign w
  let e := sampleExponent w
  let f := sampleFraction w
  if e = 255 then
    if f = 0 then .number (if s then .negInf else .posInf) else .nan
  else if e = 0 then
    .number (.fin (timesPowTwo (withSign s f) (-149)))
  else
    .number (.fin (timesPowTwo (withSign s (2 ^ 23 + f)) ((e : Int) - 150)))

/-- `to_i16(q) = q mod 65536` (R5, R60). -/
def toI16 (q : Int) : OutWord := BitVec.ofInt 16 q

end Sys2Proof.Machine
end

