-- ==== Sys2Proof/Machine/State.lean ====
section
/-! DEFINITION. The state of RQ (spec/10_state.md): the three state registers, and beside them the input
still to come and the packets handed out so far, which the spec calls the input and the observation of
a run (R21). -/

namespace Sys2Proof.Machine

/-- Register `STATE` (R15), 2 bits. The code `0b11` is reserved and "a model has no such value". -/
inductive Lifecycle where
  /-- `0b00`: no session. -/
  | unconf
  /-- `0b01`: a session is open, `TRATE` is valid. -/
  | ready
  /-- `0b10`: a session failed; every packet but `STOP` is dropped. -/
  | error
deriving DecidableEq, Repr

/-- The bits of register `STATE` (R15). -/
def Lifecycle.code : Lifecycle → BitVec 2
  | .unconf => 0b00
  | .ready => 0b01
  | .error => 0b10

/-- Register `CAUSE` (R16, R111), 3 bits. Codes 5 to 7 are reserved and never produced. -/
inductive Cause where
  /-- 0, `NONE`: not in `ERROR`. -/
  | none
  /-- 1, `CFG_TARGET`: `CONFIG t` with `t <= 0`. -/
  | cfgTarget
  /-- 2, `CFG_RATES`: `PROCESS r, X` with `r < TRATE`. -/
  | cfgRates
  /-- 3, `PROTOCOL`: `PROCESS` without a session, `CONFIG` within one. -/
  | protocol
  /-- 4, `ILLEGAL`: a packet that is no command. -/
  | illegal
deriving DecidableEq, Repr

/-- The bits of register `CAUSE` (R111). -/
def Cause.code : Cause → BitVec 3
  | .none => 0
  | .cfgTarget => 1
  | .cfgRates => 2
  | .protocol => 3
  | .illegal => 4

/-- One event of a run's input (R131): a whole command packet on port `CMD`, or the reset input. -/
inductive Event where
  | packet (words : List Word)
  | reset
deriving DecidableEq, Repr

/-- An output packet: a sequence of 16-bit words handed to the sink as one unit (R57). -/
abbrev OutPacket := List OutWord

/-- The state of the machine. -/
structure State where
  /-- Register `TRATE` (CR0, R14). `none` is the spec's own "no value", which reset gives (R22) and
  `STOP` writes (R72); log entry 3. -/
  trate : Option Word
  /-- Register `STATE` (CR1, R15). -/
  state : Lifecycle
  /-- Register `CAUSE` (CR2, R16). -/
  cause : Cause
  /-- The model's own field: the events still to come, the next one first (R21, R35, R131; log
  entry 1). -/
  cmd : List Event
  /-- The model's own field: the packets handed to the sink so far, the first one first (R21, R34,
  R134; log entry 2). -/
  outp : List OutPacket
deriving DecidableEq, Repr

/-- Reasons for which the model's machine stops. The errors of the spec (R111) are none of these: they
are next states. -/
inductive Fault where
  /-- Raised by `PROCESS` in `READY` when `TRATE` holds no value or one below 1. No rule gives `PROCESS`
  an effect there, and R23 (c) rules it out of every reachable state (log entry 5). Safe: a stop. -/
  | targetRateInvalid
deriving DecidableEq, Repr

/-- Reasons for which an instruction has no meaning in the model. -/
inductive Refusal where
  /-- Raised by an arm of `exec` for an instruction without a meaning; no arm does so. Safe. -/
  | notModelled (mnemonic : String)
deriving DecidableEq, Repr

/-- The machine right after reset (R22, R130): `STATE = UNCONF`, `CAUSE = NONE`, `TRATE` without a value,
nothing pending on `OUTP`; and no event on its way. -/
def State.reset : State where
  trate := none
  state := .unconf
  cause := .none
  cmd := []
  outp := []

end Sys2Proof.Machine
end

