-- ==== Sys2Proof/Machine/Packets.lean ====
section
/-! DEFINITION. The packets RQ emits (spec/30_encoding.md R57 to R59), and the byte images that the spec's
convention gives packets outside the block (R37). -/

namespace Sys2Proof.Machine

/-- `BLK(NOUT, OUT)` (R58): tag `0x10` beside `NOUT[23:16]`, then `NOUT[15:0]`, then the samples;
`NOUT` in its 24 bits. -/
def blkPacket (out : List OutWord) : OutPacket :=
  let n := out.length % 2 ^ 24
  BitVec.ofNat 16 (0x10 * 2 ^ 8 + n / 2 ^ 16) :: BitVec.ofNat 16 (n % 2 ^ 16) :: out

/-- `ERR(c)` (R59): tag `0xE0` beside a zero byte, then 13 zero bits beside the cause code. -/
def errPacket (c : Cause) : OutPacket := [BitVec.ofNat 16 (0xE0 * 2 ^ 8), BitVec.ofNat 16 c.code.toNat]

/-- The bytes of a `CMD` word, least significant first (R37). No rule of RQ depends on it. -/
def wordBytes (w : Word) : List (BitVec 8) :=
  [w.extractLsb' 0 8, w.extractLsb' 8 8, w.extractLsb' 16 8, w.extractLsb' 24 8]

/-- The bytes of an `OUTP` word, least significant first (R37). -/
def outWordBytes (w : OutWord) : List (BitVec 8) := [w.extractLsb' 0 8, w.extractLsb' 8 8]

/-- The byte image of a command packet, word 0 first (R37). -/
def packetBytes (p : List Word) : List (BitVec 8) := p.flatMap wordBytes

/-- The byte image of an output packet, word 0 first (R37). -/
def outPacketBytes (p : OutPacket) : List (BitVec 8) := p.flatMap outWordBytes

end Sys2Proof.Machine
end

