-- ==== Sys2Proof/Machine/Ops.lean ====
section
/-! DEFINITION. The operations that the commands share: the registers, the two ports, the input block, error
entry and the ways out of `ERROR`, and what an event on the input is. -/

namespace Sys2Proof.Machine

/-- `emit` (R8, R34): the packet is handed to the sink at once; the sink never makes RQ wait. -/
def emit (p : OutPacket) (s : State) : State := { s with outp := s.outp ++ [p] }

/-- The emission that ends a `PROCESS` (R100, R104): the whole block as one packet, but for a block of no
samples where `EMIT_EMPTY` is false. -/
def emitBlock (out : List OutWord) (s : State) : State :=
  if 0 < out.length ∨ Config.emitEmpty = true then emit (blkPacket out) s else s

/-- Taking an error, `raise Error(c)` (R113): the cause is saved, RQ enters `ERROR`, and the one `ERR` packet
is emitted. `TRATE` is neither written nor cleared, and nothing else happens. -/
def raiseError (c : Cause) (s : State) : State :=
  emit (errPacket c) { s with cause := c, state := .error }

/-- The way out of a session and of `ERROR` (R119): what `STOP` (R72) and the reset input (R130) both do to
the registers. Nothing is emitted. -/
def discardSession (s : State) : State := { s with trate := none, state := .unconf, cause := .none }

/-- A `CONFIG` that succeeds (R70): `TRATE <- t`, `STATE <- READY`. -/
def openSession (t : Word) (s : State) : State := { s with trate := some t, state := .ready }

/-- The read of `TRATE` by `PROCESS` in `READY` (R14): its value where it holds a legal one, at least 1. -/
def targetRate (s : State) : Option Int :=
  match s.trate with
  | some t => if 1 ≤ rateOf t then some (rateOf t) else none
  | none => none

/-- The read of input-block cell `k` (R30). `PROCESS` only reads cells below `NIN` (R47), so the value
given beyond the block is never used (`Obligations.SelectionStaysInBlock`). -/
def readIn (x : List Word) (k : Nat) : Word := x.getD k 0

/-- The reset input (R130): taken between steps (R131), with the effect of `STOP` on the registers. -/
def hardwareReset (s : State) : State := discardSession s

/-- An illegal packet (R116, R117): it raises `ILLEGAL` in `UNCONF` and `READY` and is dropped in `ERROR`; none
of its words is looked at. -/
def illegalPacket (s : State) : State :=
  match s.state with
  | .error => s
  | _ => raiseError .illegal s

/-- No event to take: RQ keeps its three registers and waits (R126, R134; log entry 7). -/
def idle (s : State) : State := s

/-- What the next event of the input is, with the state from which it has been taken. -/
inductive Fetched where
  | nothing
  | reset (s : State)
  | command (i : Instr) (s : State)
  | illegal (why : IllegalReason) (s : State)
deriving DecidableEq, Repr

/-- Take the next event (R35): events are taken one at a time, in the order the host delivered them. -/
def fetch (s : State) : Fetched :=
  match s.cmd with
  | [] => .nothing
  | .reset :: rest => .reset { s with cmd := rest }
  | .packet ws :: rest =>
    match decode ws with
    | .command i => .command i { s with cmd := rest }
    | .illegal why => .illegal why { s with cmd := rest }

end Sys2Proof.Machine
end

