-- ==== Sys2Proof/Machine/Quantize.lean ====
section
/-! DEFINITION. Unit `QNT`, the float-to-int16 quantizer with clipping (spec/42_quantize.md). -/

namespace Sys2Proof.Machine

/-- `QNT(w)` (R90): the exact product with `SCALE` (R91), rounded half up, clamped (R92); 0 for a NaN
(R93). Total; it sets no flag and raises nothing. -/
def qnt (w : Word) : Int :=
  match sampleValue w with
  | .nan => Config.qNan
  | .number v =>
    ((v.map fun x => x * (Config.scale : Rat)).round).clamp Config.qMin Config.qMax

/-- The integer algorithm of R96, written from the rule's own text. The machine does not use it; that it
equals `qnt` for every pattern is a statement (`Obligations.QuantizerEqualsIntegerAlgorithm`). -/
def qntInteger (w : Word) : Int :=
  let s := sampleSign w
  let e := sampleExponent w
  let f := sampleFraction w
  if e = 255 ∧ f ≠ 0 then 0
  else if 128 ≤ e then (if s then -32768 else 32767)
  else if e ≤ 110 then 0
  else
    let m : Int := 2 ^ 23 + f
    let p := m * 32767
    let sh := 150 - e
    let a := if s then -p else p
    clamp ((a + 2 ^ (sh - 1)) / 2 ^ sh) (-32768) 32767

end Sys2Proof.Machine
end

