-- ==== Sys2Proof/Machine/Resample.lean ====
section
/-! DEFINITION. Units `LEN` and `SEL`, the nearest-neighbour resampler (spec/41_resample.md), in the integer
forms that R80 calls normative. `n` is the input length, `r` the native rate, `t` the target rate; `PROCESS`
uses both only where `1 <= t <= r` (R102). -/

namespace Sys2Proof.Machine

/-- `LEN(N, R, T) = (2*N*T + R) div (2*R)` (R81). -/
def outLen (n r t : Nat) : Nat := (2 * n * t + r) / (2 * r)

/-- `raw(i) = (2*i*R + T) div (2*T)`: the source index before the clamp (R85). -/
def rawIndex (i r t : Nat) : Nat := (2 * i * r + t) / (2 * t)

/-- `SEL(i, N, R, T) = min(max(raw(i), 0), N - 1)` (R83), used only where `N >= 1` (R84). -/
def srcIndex (i n r t : Nat) : Nat := min (max (rawIndex i r t) 0) (n - 1)

end Sys2Proof.Machine
end

