-- ==== Sys2Proof/Machine/Process.lean ====
section
/-! DEFINITION. The command `PROCESS` (spec/43_process.md). -/

namespace Sys2Proof.Machine

/-- The output block of an input block `x` at native rate `r` and target rate `t` (R100, R107): cell `i` is the
quantized sample that `SEL` picks for `i`. It depends on nothing else, so no phase is carried (R88). -/
def outputBlock (r t : Nat) (x : List Word) : List OutWord :=
  (List.range (outLen x.length r t)).map fun i =>
    toI16 (qnt (readIn x (srcIndex i x.length r t)))

/-- `PROCESS r, X` (R100). The checks come in the order of R109: lifecycle, then rates (R102), then the
transform. -/
def execProcess (r : Word) (x : List Word) (s : State) : Host.Outcome State Fault Refusal :=
  match s.state with
  | .error => .next s
  | .unconf => .next (raiseError .protocol s)
  | .ready =>
    match targetRate s with
    | none => .fault .targetRateInvalid
    | some t =>
      if rateOf r < t then .next (raiseError .cfgRates s)
      else .next (emitBlock (outputBlock (rateOf r).toNat t.toNat x) s)

end Sys2Proof.Machine
end

