-- ==== Sys2Proof/Machine/Session.lean ====
section
/-! DEFINITION. The session commands `CONFIG` and `STOP` (spec/40_session_commands.md). -/

namespace Sys2Proof.Machine

/-- `CONFIG t` (R70). The lifecycle is judged before the operand (R114). -/
def execConfig (t : Word) (s : State) : Host.Outcome State Fault Refusal :=
  match s.state with
  | .error => .next s
  | .ready => .next (raiseError .protocol s)
  | .unconf =>
    if rateOf t ≤ 0 then .next (raiseError .cfgTarget s) else .next (openSession t s)

/-- `STOP` (R72): accepted in every state. -/
def execStop (s : State) : Host.Outcome State Fault Refusal := .next (discardSession s)

end Sys2Proof.Machine
end

