-- ==== Sys2Proof/Machine/Dispatch.lean ====
section
/-! DEFINITION. One arm per command: which meaning it has. -/

namespace Sys2Proof.Machine

def exec (i : Instr) (s : State) : Host.Outcome State Fault Refusal :=
  match i with
  | .config t => Sys2Proof.Machine.execConfig t s
  | .process r x => Sys2Proof.Machine.execProcess r x s
  | .stop => Sys2Proof.Machine.execStop s

end Sys2Proof.Machine
end

