-- ==== Sys2Proof/Machine/Step.lean ====
section
/-! DEFINITION. One atomic step: one event of the input (R35, R36, R131). -/

namespace Sys2Proof.Machine

/-- One step of RQ: take the next event and finish it. -/
def step (s : State) : Host.Outcome State Fault Refusal :=
  match fetch s with
  | .nothing => .next (idle s)
  | .reset s' => .next (hardwareReset s')
  | .command i s' => exec i s'
  | .illegal _ s' => .next (illegalPacket s')

/-- `s` with the packet of an opcode-table word delivered as its very next event (log entry 1). -/
def State.withFetchWord (s : State) (nbits w : Nat) : State :=
  { s with cmd := .packet (tableWords nbits w) :: s.cmd }

end Sys2Proof.Machine
end

