-- ==== Sys2Proof/WellFormed.lean ====
section
/-! DEFINITION. Which commands a packet can spell. The one bound is the 24-bit length field of
`PROCESS` (R51, R55, R140); every word is a legal rate word and a legal sample word (R61). -/

namespace Sys2Proof

/-- What makes a command one that no packet spells. -/
inductive WfError where
  /-- The block of a `PROCESS` is longer than `2^24 - 1` samples (R55, R140). -/
  | blockTooLong
deriving DecidableEq, Repr

/-- The first thing wrong with a command, if any. -/
def Instr.wfError : Instr → Option WfError
  | .config _ => none
  | .process _ x => if x.length < 2 ^ Config.lenBits then none else some .blockTooLong
  | .stop => none

/-- A command that some packet spells. -/
def Instr.wellFormed (i : Instr) : Bool := i.wfError.isNone

end Sys2Proof
end

