-- ==== Sys2Proof/Machine/Listing.lean ====
section
/-! DEFINITION. The textual syntax of command sequences and of output listings (spec/30_encoding.md R64, R66).
It has no hardware content (D26): nothing in the machine uses it. Text is a list of characters. -/

namespace Sys2Proof.Machine

/-- A token of a listing line. -/
inductive Token where
  | word (cs : List Char)
  | comma
  | leftBracket
  | rightBracket
  | leftParen
  | rightParen
  | star
deriving DecidableEq, Repr

/-- A one-character token. -/
def punctuation : Char → Option Token
  | ',' => some .comma
  | '[' => some .leftBracket
  | ']' => some .rightBracket
  | '(' => some .leftParen
  | ')' => some .rightParen
  | '*' => some .star
  | _ => none

/-- The word read so far (its characters last first), if any, in front of the tokens that follow. -/
def closeWord (read : List Char) (rest : List Token) : List Token :=
  if read.isEmpty then rest else .word read.reverse :: rest

/-- The tokens of a line; `;` starts a comment (R64). -/
def tokens : List Char → List Char → List Token
  | [], read => closeWord read []
  | c :: cs, read =>
    if c = ';' then closeWord read []
    else if c = ' ' ∨ c = '\t' then closeWord read (tokens cs [])
    else
      match punctuation c with
      | some t => closeWord read (t :: tokens cs [])
      | none => tokens cs (c :: read)

/-- A decimal digit. -/
def digitValue (c : Char) : Option Nat :=
  if '0' ≤ c ∧ c ≤ '9' then some (c.toNat - '0'.toNat) else none

/-- A hexadecimal digit. -/
def hexValue (c : Char) : Option Nat :=
  if 'a' ≤ c ∧ c ≤ 'f' then some (c.toNat - 'a'.toNat + 10)
  else if 'A' ≤ c ∧ c ≤ 'F' then some (c.toNat - 'A'.toNat + 10)
  else digitValue c

/-- The number that digits of a base spell, most significant first. -/
def digitsValue (value : Char → Option Nat) (base : Nat) : List Char → Nat → Option Nat
  | [], n => some n
  | c :: cs, n =>
    match value c with
    | some d => digitsValue value base cs (n * base + d)
    | none => none

/-- An unsigned decimal number of at least one digit. -/
def parseNat (cs : List Char) : Option Nat := if cs.isEmpty then none else digitsValue digitValue 10 cs 0

/-- A signed decimal number. -/
def parseInt : List Char → Option Int
  | '-' :: cs => (parseNat cs).map fun n => -(n : Int)
  | cs => (parseNat cs).map fun n => (n : Int)

/-- `<rate>`: a signed decimal integer from `-2147483648` to `2147483647` (R64). -/
def parseRate (cs : List Char) : Option Word :=
  match parseInt cs with
  | some n => if -2147483648 ≤ n ∧ n ≤ 2147483647 then some (BitVec.ofInt 32 n) else none
  | none => none

/-- A 32-bit pattern: `0x` and eight hexadecimal digits (R64). -/
def parsePattern : List Char → Option Word
  | '0' :: 'x' :: cs => if cs.length = 8 then (digitsValue hexValue 16 cs 0).map (BitVec.ofNat 32) else none
  | _ => none

/-- A decimal number without sign, with or without a fraction, as an exact rational. -/
def parseDecimal (cs : List Char) : Option Rat :=
  match cs.span (· ≠ '.') with
  | (whole, []) => (parseNat whole).map fun n => (n : Rat)
  | (whole, _ :: fraction) =>
    match parseNat whole, parseNat fraction with
    | some n, some f => some (mkRat (n * 10 ^ fraction.length + f : Nat) (10 ^ fraction.length))
    | _, _ => none

/-- Round to nearest, ties to even, on a rational that is not negative. -/
def roundHalfEven (x : Rat) : Nat :=
  let down := x.floor.toNat
  let rest := x - (down : Rat)
  if rest < 1 / 2 then down
  else if 1 / 2 < rest then down + 1
  else if down % 2 = 0 then down else down + 1

/-- The exponent `k` with `2^k <= x < 2^(k+1)`, for `x > 0`. -/
def binaryExponent (x : Rat) : Int :=
  let k : Int := (Nat.log2 x.num.toNat : Int) - (Nat.log2 x.den : Int)
  if x < timesPowTwo 1 k then k - 1 else k

/-- `f32(x)` without its sign: the binary32 pattern nearest to `x >= 0` under round-to-nearest-even (R64,
K3), infinity beyond the largest finite pattern (PRESUMED from IEEE-754, log entry 15). -/
def f32Magnitude (x : Rat) : Nat :=
  if x = 0 then 0
  else
    let k := max (binaryExponent x) (-126)
    min ((k + 126).toNat * 2 ^ 23 + roundHalfEven (x * timesPowTwo 1 (23 - k))) 0x7F800000

/-- `f32(<decimal>)` (R64): the pattern of a signed decimal. -/
def parseF32 : List Char → Option Word
  | '-' :: cs => (parseDecimal cs).map fun x => 0x80000000#32 ||| BitVec.ofNat 32 (f32Magnitude x)
  | cs => (parseDecimal cs).map fun x => BitVec.ofNat 32 (f32Magnitude x)

/-- One entry of a sample list: a sample, or `<sample> * k` (R64). -/
def parseSample : List Token → Option (List Word)
  | [.word p] => (parsePattern p).map fun w => [w]
  | [.word p, .star, .word k] =>
    match parsePattern p, parseNat k with
    | some w, some n => some (List.replicate n w)
    | _, _ => none
  | [.word f, .leftParen, .word d, .rightParen] =>
    if f = "f32".toList then (parseF32 d).map fun w => [w] else none
  | [.word f, .leftParen, .word d, .rightParen, .star, .word k] =>
    if f = "f32".toList then
      match parseF32 d, parseNat k with
      | some w, some n => some (List.replicate n w)
      | _, _ => none
    else none
  | _ => none

/-- The token groups between commas: a list of at least one group. -/
def splitCommas : List Token → List Token → List (List Token)
  | [], read => [read.reverse]
  | .comma :: rest, read => read.reverse :: splitCommas rest []
  | t :: rest, read => splitCommas rest (t :: read)

/-- The groups read one by one; none of them may be ill formed. -/
def parseGroups {α : Type} (parse : List Token → Option α) : List (List Token) → Option (List α)
  | [] => some []
  | g :: gs =>
    match parse g, parseGroups parse gs with
    | some a, some as => some (a :: as)
    | _, _ => none

/-- `[ <sample>, … ]` or `[]` (R64). -/
def parseBlock : List Token → Option (List Word)
  | .leftBracket :: rest =>
    if rest.getLast? = some .rightBracket then
      if rest.length = 1 then some []
      else (parseGroups parseSample (splitCommas rest.dropLast [])).map List.flatten
    else none
  | _ => none

/-- A word of `.raw`. -/
def parseRawWord : List Token → Option Word
  | [.word p] => parsePattern p
  | _ => none

/-- A line of a listing (R64, R66). -/
inductive Line where
  /-- A blank line or a comment. -/
  | blank
  /-- `CONFIG`, `PROCESS` or `STOP`. -/
  | command (i : Instr)
  /-- `QUANTIZE [ … ]`, the pseudo-command (R66). -/
  | quantize (x : List Word)
  /-- `.reset`: assert the hardware reset. -/
  | reset
  /-- `.raw`: send one packet of exactly these words. -/
  | raw (words : List Word)
deriving DecidableEq, Repr

/-- A line read from its tokens; `none` for a line of no form of R64 and R66. -/
def parseTokens : List Token → Option Line
  | [] => some .blank
  | .word op :: rest =>
    if op = "CONFIG".toList then
      match rest with
      | [.word t] => (parseRate t).map fun w => .command (.config w)
      | _ => none
    else if op = "PROCESS".toList then
      match rest with
      | .word r :: .comma :: block =>
        match parseRate r, parseBlock block with
        | some w, some x => some (.command (.process w x))
        | _, _ => none
      | _ => none
    else if op = "STOP".toList then
      if rest = [] then some (.command .stop) else none
    else if op = "QUANTIZE".toList then (parseBlock rest).map .quantize
    else if op = ".reset".toList then
      if rest = [] then some .reset else none
    else if op = ".raw".toList then (parseGroups parseRawWord (splitCommas rest [])).map .raw
    else none
  | _ => none

/-- A line of a listing read from its text. -/
def parseLine (text : List Char) : Option Line := parseTokens (tokens text [])

/-- The packet of a command; `none` for a block that no packet carries (R55, R140). `NIN` is placed in
`len` here (R64). -/
def commandEvents (i : Instr) : Option (List Event) :=
  if i.wellFormed then some [.packet (encode i)] else none

/-- The events of a line, where `rate` is the operand of the last `CONFIG` before it. `QUANTIZE` expands to
`PROCESS` at that rate and may stand only after a `CONFIG` (R66). -/
def lineEvents (rate : Option Word) : Line → Option (List Event)
  | .blank => some []
  | .command i => commandEvents i
  | .quantize x =>
    match rate with
    | some t => commandEvents (.process t x)
    | none => none
  | .reset => some [.reset]
  | .raw words => some [.packet words]

/-- The operand of the last `CONFIG` after a line. -/
def rateAfter (rate : Option Word) : Line → Option Word
  | .command (.config t) => some t
  | _ => rate

/-- The input of a run that a listing writes down, line by line. -/
def assemble : Option Word → List Line → Option (List Event)
  | _, [] => some []
  | rate, l :: ls =>
    match lineEvents rate l, assemble (rateAfter rate l) ls with
    | some now, some later => some (now ++ later)
    | _, _ => none

/-- A signed decimal number. -/
def showInt (n : Int) : List Char :=
  if n < 0 then '-' :: Nat.toDigits 10 n.natAbs else Nat.toDigits 10 n.natAbs

/-- The cause mnemonics of R111. -/
def Cause.mnemonic : Cause → String
  | .none => "NONE"
  | .cfgTarget => "CFG_TARGET"
  | .cfgRates => "CFG_RATES"
  | .protocol => "PROTOCOL"
  | .illegal => "ILLEGAL"

/-- Signed decimal samples, separated by commas. -/
def showSamples : List OutWord → List Char
  | [] => []
  | [p] => showInt p.toInt
  | p :: ps => showInt p.toInt ++ ", ".toList ++ showSamples ps

/-- The output listing of a block: `BLK <NOUT> [ <q>, … ]` (R64). -/
def showBlk (out : List OutWord) : List Char :=
  "BLK ".toList ++ Nat.toDigits 10 out.length ++ " [".toList ++ showSamples out ++ "]".toList

/-- The output listing of an error: `ERR <cause>`, the cause by its mnemonic (R64). -/
def showErr (c : Cause) : List Char := "ERR ".toList ++ c.mnemonic.toList

end Sys2Proof.Machine
end

