-- ==== Sys2Proof/Safety.lean ====
section
/-! DEFINITION. What claims about RQ speak of: runs, the state invariant (R23), the form of the output port's
packets (R57), and what makes a run go wrong (R134). -/

namespace Sys2Proof.Machine

/-- `k` steps of the machine. -/
abbrev run (k : Nat) (s : State) : Host.Outcome State Fault Refusal := Sys2Proof.core.run k s

/-- The state of an outcome that is a next state. -/
def nextState? : Host.Outcome State Fault Refusal → Option State
  | .next s => some s
  | .fault _ => none
  | .refused _ => none

/-- The invariants of R23 with the value of `TRATE` outside a session (R22): (a) holds by the type of
`STATE`; (b) `STATE = ERROR` if and only if `CAUSE != 0`; (c) in `READY`, `1 <= TRATE` (the upper bound is
that of 32 bits); and `TRATE` holds no value in `UNCONF`. -/
structure Inv (s : State) : Prop where
  errorIffCause : s.state = .error ↔ s.cause ≠ .none
  readyTrate : s.state = .ready → ∃ t, s.trate = some t ∧ 1 ≤ rateOf t ∧ rateOf t ≤ 2 ^ 31 - 1
  unconfTrate : s.state = .unconf → s.trate = none

/-- A packet of one of the two kinds RQ emits (R57): a `BLK` of at most `2^24 - 1` samples (R58) or an `ERR`
with a cause code from 1 to 4 (R59). -/
def PacketOk (p : OutPacket) : Prop :=
  (∃ out : List OutWord, out.length < 2 ^ 24 ∧ p = blkPacket out) ∨ (∃ c : Cause, c ≠ .none ∧ p = errPacket c)

/-- Every packet handed out so far has one of the two forms. -/
def PortOk (s : State) : Prop := ∀ p ∈ s.outp, PacketOk p

/-- An `ERR` packet, told by its tag `O[0][15:8] = 0xE0` (R57, R59). -/
def isErrPacket (p : OutPacket) : Bool :=
  match p with
  | h :: _ => h.extractLsb' 8 8 = 0xE0#8
  | [] => false

/-- A run went wrong if any `ERR` packet was emitted (R134). -/
def wentWrong (s : State) : Bool := s.outp.any isErrPacket

/-- The machine after reset with a finite sequence of events to come: the start of a run (R131, R132). -/
def start (events : List Event) : State := { State.reset with cmd := events }

/-- A state that some run shows (R23). -/
def Reachable (s : State) : Prop := ∃ events k, run k (start events) = .next s

end Sys2Proof.Machine
end

