-- ==== Sys2Proof/Certificates/Slice0/Obligations.lean ====
section
/-! DEFINITION. The statements for the provers. Each docstring names the rule of spec/ it comes from, and says
so where a clause is the model's own. -/

open Sys2Proof Sys2Proof.Machine

namespace Sys2Proof.Claims

/-- Rounding half away from zero, one of the two conventions the spec did not choose (R95 (d)). -/
def roundHalfAway (x : ℚ) : ℤ := if 0 ≤ x then ⌊x + 1 / 2⌋ else ⌈x - 1 / 2⌉

/-- Rounding half to even, the other one (R95 (d)). -/
def roundHalfToEven (x : ℚ) : ℤ :=
  if x - ⌊x⌋ < 1 / 2 then ⌊x⌋
  else if 1 / 2 < x - ⌊x⌋ then ⌊x⌋ + 1
  else if ⌊x⌋ % 2 = 0 then ⌊x⌋ else ⌊x⌋ + 1

/-- The quantizer's formula (R90) under another rounding convention. -/
def quantizeWith (rounding : ℚ → ℤ) (w : Word) : ℤ :=
  match sampleValue w with
  | .nan => 0
  | .number v => ((v.map fun x => x * 32767).map rounding).clamp (-32768) 32767

/-- No line of a listing is a `CONFIG`. -/
def noConfig (lines : List Line) : Prop := ∀ t, Line.command (.config t) ∉ lines

/-- The state and the output list after a packet, cell by cell of the lifecycle table (R73). -/
def lifecycleCell (s : State) (p : List Word) : Lifecycle × List OutPacket :=
  match s.state, decode p with
  | .unconf, .command (.config t) =>
    if 1 ≤ t.toInt then (.ready, s.outp) else (.error, s.outp ++ [[0xE000, 0x0001]])
  | .unconf, .command (.process _ _) => (.error, s.outp ++ [[0xE000, 0x0003]])
  | .unconf, .command .stop => (.unconf, s.outp)
  | .unconf, .illegal _ => (.error, s.outp ++ [[0xE000, 0x0004]])
  | .ready, .command (.config _) => (.error, s.outp ++ [[0xE000, 0x0003]])
  | .ready, .command (.process r x) =>
    let t := s.trate.getD 0
    if t.toInt ≤ r.toInt then
      if outLen x.length r.toInt.toNat t.toInt.toNat = 0 ∧ Config.emitEmpty = false then (.ready, s.outp)
      else (.ready, s.outp ++ [blkPacket (outputBlock r.toInt.toNat t.toInt.toNat x)])
    else (.error, s.outp ++ [[0xE000, 0x0002]])
  | .ready, .command .stop => (.unconf, s.outp)
  | .ready, .illegal _ => (.error, s.outp ++ [[0xE000, 0x0004]])
  | .error, .command .stop => (.unconf, s.outp)
  | .error, _ => (.error, s.outp)

end Sys2Proof.Claims

/-! ### Packets and commands (spec/30_encoding.md) -/

/-- R54, R55, R61, R65: a well-formed command is read back from its packet, every operand at every value. -/
def Obligations.DecodeOfEncode : Prop :=
  ∀ i : Instr, i.wellFormed = true → decode (encode i) = .command i

/-- R54, R55, R61, R65: each command has one packet, and only well-formed commands are decoded. -/
def Obligations.EncodeOfDecode : Prop :=
  ∀ (p : List Word) (i : Instr), decode p = .command i → i.wellFormed = true ∧ encode i = p

/-- R61: the three legal arms of `decode`, each exactly. -/
def Obligations.DecodeArmsExactly : Prop :=
  (∀ p t, decode p = .command (.config t) ↔
    ∃ h : Word, p = [h, t] ∧ h.toNat / 2 ^ 24 = 1 ∧ h.toNat % 2 ^ 24 = 0) ∧
  (∀ p r x, decode p = .command (.process r x) ↔
    ∃ h : Word, p = h :: r :: x ∧ h.toNat / 2 ^ 24 = 2 ∧ p.length = h.toNat % 2 ^ 24 + 2) ∧
  (∀ p, decode p = .command .stop ↔
    ∃ h : Word, p = [h] ∧ h.toNat / 2 ^ 24 = 3 ∧ h.toNat % 2 ^ 24 = 0)

/-- R62: when a packet is illegal, and that it then raises `ILLEGAL` or, in `ERROR`, is dropped. -/
def Obligations.IllegalPacketsExactly : Prop :=
  (∀ p : List Word, (∃ why, decode p = .illegal why) ↔
    p = [] ∨ ∃ (h : Word) (rest : List Word), p = h :: rest ∧
      ((h.toNat / 2 ^ 24 = 0 ∨ 4 ≤ h.toNat / 2 ^ 24) ∨
       (h.toNat / 2 ^ 24 = 1 ∧ (h.toNat % 2 ^ 24 ≠ 0 ∨ p.length ≠ 2)) ∨
       (h.toNat / 2 ^ 24 = 2 ∧ p.length ≠ h.toNat % 2 ^ 24 + 2) ∨
       (h.toNat / 2 ^ 24 = 3 ∧ (h.toNat % 2 ^ 24 ≠ 0 ∨ p.length ≠ 1)))) ∧
  (∀ (s : State) (p : List Word) (rest : List Event) (why : IllegalReason),
    s.cmd = .packet p :: rest → decode p = .illegal why →
      (s.state ≠ .error → step s = .next { s with
        cmd := rest, cause := .illegal, state := .error, outp := s.outp ++ [[0xE000, 0x0004]] }) ∧
      (s.state = .error → step s = .next { s with cmd := rest }))

/-- R54, R55, R65, R61: words written out from the encodings. That the last two packets are illegal is R62's; the
reason each of them names is the model's own (log entry 11), since R62 has all packets illegal alike. -/
def Obligations.WrittenOutWordsDecode : Prop :=
  decode [0x01000000, 0x00001F40] = .command (.config 8000) ∧
  decode [0x02000002, 0x0000BB80, 0x3F000000, 0xBF000000] =
    .command (.process 48000 [0x3F000000, 0xBF000000]) ∧
  decode [0x02000000, 0x0000BB80] = .command (.process 48000 []) ∧
  decode [0x03000000] = .command .stop ∧
  decode [0x01000001, 0x00001F40] = .illegal .reservedLen ∧
  decode [0x04000000] = .illegal .unassignedOpcode

/-- R55, R140: which blocks a `PROCESS` packet can carry. -/
def Obligations.BlockLengthLimit : Prop :=
  ∀ (r : Word) (x : List Word), (∃ p, decode p = .command (.process r x)) ↔ x.length ≤ 2 ^ 24 - 1

/-! ### Steps, reset and the session commands -/

/-- R35, R36: the step at a packet that decodes to a command runs that command, with the packet taken off the
input; and `withFetchWord` (the model's own) makes an opcode-table word the very next packet. -/
def Obligations.StepRunsDecodedCommand : Prop :=
  (∀ (s : State) (p : List Word) (rest : List Event) (i : Instr),
    s.cmd = .packet p :: rest → decode p = .command i → step s = exec i { s with cmd := rest }) ∧
  (∀ (s : State) (nbits w : Nat) (i : Instr),
    decodeTableWord nbits w = some i → step (s.withFetchWord nbits w) = exec i s)

/-- R22: the values after reset, and after `STOP` from any state. -/
def Obligations.ResetAndStopValues : Prop :=
  (State.reset.state.code = 0b00 ∧ State.reset.cause.code = 0 ∧ State.reset.trate = none ∧
    State.reset.outp = []) ∧
  ∀ s : State, ∃ s', exec .stop s = .next s' ∧ s'.state.code = 0b00 ∧ s'.cause.code = 0 ∧
    s'.trate = none ∧ s'.outp = s.outp ∧ s'.cmd = s.cmd

/-- R130: the reset input gives the registers their reset values and emits nothing, as `STOP` does. -/
def Obligations.HardwareResetActsAsStop : Prop :=
  ∀ (s : State) (rest : List Event), s.cmd = .reset :: rest →
    step s = .next { s with
      cmd := rest, state := State.reset.state, cause := State.reset.cause, trate := State.reset.trate } ∧
    step s = exec .stop { s with cmd := rest }

/-- The model's choice for a step with no event to take (log entry 7), read from R126 and R134: RQ stays idle
with its registers held. -/
def Obligations.IdleWithoutEvents : Prop := ∀ s : State, s.cmd = [] → step s = .next s

/-- R70: `CONFIG t` in each state of the lifecycle. -/
def Obligations.ConfigByState : Prop :=
  ∀ (t : Word) (s : State),
    (s.state = .unconf → 1 ≤ t.toInt →
      exec (.config t) s = .next { s with trate := some t, state := .ready }) ∧
    (s.state = .unconf → t.toInt ≤ 0 →
      exec (.config t) s = .next { s with
        cause := .cfgTarget, state := .error, outp := s.outp ++ [[0xE000, 0x0001]] }) ∧
    (s.state = .ready →
      exec (.config t) s = .next { s with
        cause := .protocol, state := .error, outp := s.outp ++ [[0xE000, 0x0003]] }) ∧
    (s.state = .error → exec (.config t) s = .next s)

/-- R72: `STOP` in every state; in `UNCONF` (with the invariant of R22 and R23) it changes nothing. -/
def Obligations.StopInEveryState : Prop :=
  (∀ s : State, exec .stop s = .next { s with state := .unconf, cause := .none, trate := none }) ∧
  (∀ s : State, Inv s → s.state = .unconf → exec .stop s = .next s)

/-! ### PROCESS (spec/43_process.md) -/

/-- R107: the block that a successful `PROCESS` emits, and that only the ratio of the rates matters. Where
the block is empty, the model's parameter `EMIT_EMPTY` decides (R104). -/
def Obligations.ProcessEmitsTransformedBlock : Prop :=
  (∀ (r t : Word) (x : List Word) (s : State),
    s.state = .ready → s.trate = some t → 1 ≤ t.toInt → t.toInt ≤ r.toInt →
      let R := r.toInt.toNat
      let T := t.toInt.toNat
      let nout := (2 * x.length * T + R) / (2 * R)
      let out := (List.range nout).map fun i =>
        BitVec.ofInt 16 (qnt (x.getD (min (max ((2 * i * R + T) / (2 * T)) 0) (x.length - 1)) 0))
      exec (.process r x) s = .next (if nout = 0 ∧ Config.emitEmpty = false then s
        else { s with outp := s.outp ++ [blkPacket out] })) ∧
  (∀ (c R T : Nat) (x : List Word), 1 ≤ c → 1 ≤ T → T ≤ R →
    outputBlock (c * R) (c * T) x = outputBlock R T x)

/-- R102: `CFG_RATES` is raised exactly when `r < TRATE`, which covers every `r <= 0`. -/
def Obligations.RateCheckExactly : Prop :=
  ∀ (r t : Word) (x : List Word) (s : State),
    s.state = .ready → s.trate = some t → 1 ≤ t.toInt →
      (r.toInt < t.toInt → exec (.process r x) s = .next { s with
        cause := .cfgRates, state := .error, outp := s.outp ++ [[0xE000, 0x0002]] }) ∧
      (t.toInt ≤ r.toInt → ∃ s', exec (.process r x) s = .next s' ∧ s'.state = .ready ∧
        s'.cause = s.cause ∧ s'.trate = some t) ∧
      (r.toInt ≤ 0 → r.toInt < t.toInt)

/-- R109: the order of the checks in `PROCESS`: the state, then the rate relation (`CFG_RATES`), then the
transform. In `UNCONF` and `ERROR` neither operand is looked at; the sample words are looked at by none of the
checks. An empty block goes by the parameter `EMIT_EMPTY` (R104). -/
def Obligations.ProcessChecksInOrder : Prop :=
  (∀ r x (s : State), s.state = .error → exec (.process r x) s = .next s) ∧
  (∀ r x (s : State), s.state = .unconf → exec (.process r x) s = .next { s with
    cause := .protocol, state := .error, outp := s.outp ++ [[0xE000, 0x0003]] }) ∧
  (∀ (r t : Word) x (s : State), s.state = .ready → s.trate = some t → 1 ≤ t.toInt →
    (r.toInt < t.toInt → ∃ s', s'.state = .error ∧ s'.cause = .cfgRates ∧ s'.trate = some t ∧ s'.cmd = s.cmd ∧
      s'.outp = s.outp ++ [[0xE000, 0x0002]] ∧ ∀ y, exec (.process r y) s = .next s') ∧
    (t.toInt ≤ r.toInt → ∃ s', exec (.process r x) s = .next s' ∧ s'.state = .ready ∧ s'.cause = s.cause ∧
      s'.trate = some t ∧ s'.cmd = s.cmd ∧
      s'.outp = if outLen x.length r.toInt.toNat t.toInt.toNat = 0 ∧ Config.emitEmpty = false then s.outp
        else s.outp ++ [blkPacket (outputBlock r.toInt.toNat t.toInt.toNat x)]))

/-- R101: equal rates are legal and quantize every sample in place. The block is emitted but for one case: the
empty block where the parameter `EMIT_EMPTY` is false (R104, log entry 6). -/
def Obligations.EqualRatesQuantizeOnly : Prop :=
  ∀ (t : Word) (x : List Word) (s : State),
    s.state = .ready → s.trate = some t → 1 ≤ t.toInt →
      exec (.process t x) s = .next (if x = [] ∧ Config.emitEmpty = false then s
        else { s with outp := s.outp ++ [blkPacket (x.map fun w => toI16 (qnt w))] })

/-- R103: the empty input is no error, and the rate check is still made. -/
def Obligations.EmptyInputIsNoError : Prop :=
  ∀ (r t : Word) (s : State), s.state = .ready → s.trate = some t → 1 ≤ t.toInt →
    (t.toInt ≤ r.toInt → exec (.process r []) s = .next (if Config.emitEmpty = true
      then { s with outp := s.outp ++ [[0x1000, 0x0000]] } else s)) ∧
    (r.toInt < t.toInt → exec (.process r []) s = .next { s with
      cause := .cfgRates, state := .error, outp := s.outp ++ [[0xE000, 0x0002]] })

/-- R104: where a zero-length block comes from, and what the sink then sees under each setting of
`EMIT_EMPTY`. -/
def Obligations.ZeroLengthOutput : Prop :=
  ∀ (r t : Word) (x : List Word) (s : State),
    s.state = .ready → s.trate = some t → 1 ≤ t.toInt → t.toInt ≤ r.toInt →
      (outLen x.length r.toInt.toNat t.toInt.toNat = 0 ↔
        x = [] ∨ 2 * (x.length : ℤ) * t.toInt < r.toInt) ∧
      (outLen x.length r.toInt.toNat t.toInt.toNat = 0 →
        exec (.process r x) s = .next (if Config.emitEmpty = true
          then { s with outp := s.outp ++ [[0x1000, 0x0000]] } else s))

/-- R89: two blocks of one length that agree on the cells `SEL` picks have the same effect, in every state. -/
def Obligations.UnselectedSamplesHaveNoEffect : Prop :=
  ∀ (r : Word) (x y : List Word) (s : State), x.length = y.length →
    (∀ (t : Word) (i : Nat), s.trate = some t → i < outLen x.length r.toInt.toNat t.toInt.toNat →
      x[srcIndex i x.length r.toInt.toNat t.toInt.toNat]? =
        y[srcIndex i x.length r.toInt.toNat t.toInt.toNat]?) →
    exec (.process r x) s = exec (.process r y) s

/-! ### Errors and the lifecycle -/

/-- R113: whatever step enters `ERROR` saves a cause from 1 to 4, emits that one `ERR` packet and nothing
else, and leaves `TRATE` as it was. -/
def Obligations.ErrorEntryIsWholeEffect : Prop :=
  ∀ s s' : State, step s = .next s' → s.state ≠ .error → s'.state = .error →
    1 ≤ s'.cause.code.toNat ∧ s'.cause.code.toNat ≤ 4 ∧ s'.trate = s.trate ∧ s'.cmd = s.cmd.tail ∧
      s'.outp = s.outp ++ [[0xE000, BitVec.ofNat 16 s'.cause.code.toNat]]

/-- R114: the order in which one packet's error is chosen, and that a packet past all checks raises none: a `STOP`
in every state, a `CONFIG` of a legal rate in `UNCONF`, a `PROCESS` at a supported rate in `READY`. -/
def Obligations.ErrorPriority : Prop :=
  ∀ (s : State) (p : List Word) (rest : List Event), s.cmd = .packet p :: rest →
    (s.state = .error → decode p = .command .stop → step s = exec .stop { s with cmd := rest }) ∧
    (s.state = .error → decode p ≠ .command .stop → step s = .next { s with cmd := rest }) ∧
    (s.state ≠ .error → ∀ why, decode p = .illegal why →
      ∃ s', step s = .next s' ∧ s'.state = .error ∧ s'.cause = .illegal) ∧
    (s.state = .unconf → ∀ r x, decode p = .command (.process r x) →
      ∃ s', step s = .next s' ∧ s'.state = .error ∧ s'.cause = .protocol) ∧
    (s.state = .ready → ∀ t, decode p = .command (.config t) →
      ∃ s', step s = .next s' ∧ s'.state = .error ∧ s'.cause = .protocol) ∧
    (s.state = .unconf → ∀ t : Word, decode p = .command (.config t) →
      ∃ s', step s = .next s' ∧
        (t.toInt ≤ 0 → s'.state = .error ∧ s'.cause = .cfgTarget) ∧
        (1 ≤ t.toInt → s'.state = .ready ∧ s'.outp = s.outp)) ∧
    (s.state = .ready → ∀ r x, decode p = .command (.process r x) →
      ∀ t : Word, s.trate = some t → 1 ≤ t.toInt → ∃ s', step s = .next s' ∧
        (r.toInt < t.toInt → s'.state = .error ∧ s'.cause = .cfgRates) ∧
        (t.toInt ≤ r.toInt → s'.state = .ready ∧ s'.cause = s.cause)) ∧
    (s.state ≠ .error → decode p = .command .stop →
      ∃ s', step s = .next s' ∧ s'.state = .unconf ∧ s'.cause = .none ∧ s'.outp = s.outp)

/-- R117: in `ERROR` every packet but a well-formed `STOP` is dropped, however many come: the registers and the
output list stay as they are. -/
def Obligations.ErrorStateStaysSilent : Prop :=
  ∀ (k : Nat) (s : State), s.state = .error →
    (∀ e ∈ s.cmd.take k, ∃ p, e = .packet p ∧ decode p ≠ .command .stop) →
    run k s = .next { s with cmd := s.cmd.drop k }

/-- R119: the only ways out of `ERROR` are `STOP` and the reset input; both give `UNCONF` with `CAUSE = 0`.
Until then `CAUSE` keeps the first cause: errors do not nest. -/
def Obligations.LeavingErrorState : Prop :=
  ∀ s s' : State, step s = .next s' → s.state = .error →
    (s'.state ≠ .error → s'.state = .unconf ∧ s'.cause = .none ∧
      ∃ rest, s.cmd = .reset :: rest ∨ ∃ p, s.cmd = .packet p :: rest ∧ decode p = .command .stop) ∧
    (s'.state = .error → s'.cause = s.cause)

/-- R73: the lifecycle in one table, in every state that meets the invariant of R23. -/
def Obligations.LifecycleTable : Prop :=
  ∀ (s : State) (p : List Word) (rest : List Event), Inv s → s.cmd = .packet p :: rest →
    ∃ s', step s = .next s' ∧ s'.cmd = rest ∧ (s'.state, s'.outp) = Claims.lifecycleCell s p

/-- R14, R15, R16: what changes the registers. `READY` is entered from `UNCONF` by a legal `CONFIG`, which
writes `TRATE`; `UNCONF` is entered by `STOP` or reset, which clear `TRATE` and `CAUSE`; where `STATE` stays and
is not `UNCONF`, `TRATE` and `CAUSE` stay. -/
def Obligations.RegistersChangeOnlyAsListed : Prop :=
  ∀ s s' : State, step s = .next s' →
    (s.state ≠ .ready → s'.state = .ready → s.state = .unconf ∧ s'.cause = s.cause ∧ s'.outp = s.outp ∧
      ∃ rest p t, s.cmd = .packet p :: rest ∧ decode p = .command (.config t) ∧ 1 ≤ t.toInt ∧ s'.trate = some t) ∧
    (s.state ≠ .unconf → s'.state = .unconf → s'.cause = .none ∧ s'.trate = none ∧ s'.outp = s.outp ∧
      ∃ rest, s.cmd = .reset :: rest ∨ ∃ p, s.cmd = .packet p :: rest ∧ decode p = .command .stop) ∧
    (s'.state = s.state → s.state ≠ .unconf → s'.trate = s.trate ∧ s'.cause = s.cause)

/-! ### Invariants -/

/-- R23, with R22 for `UNCONF`: the invariant is kept by every step, from every state that meets it. -/
def Obligations.InvariantKeptByEveryStep : Prop :=
  ∀ s s' : State, Inv s → step s = .next s' → Inv s'

/-- R22, R23: the reset state meets the invariant. -/
def Obligations.InvariantAtReset : Prop := Inv State.reset

/-- R23: the three invariants in every reachable state, whatever the host sends. -/
def Obligations.InvariantsOfReachableStates : Prop :=
  ∀ s : State, Reachable s →
    (s.state = .unconf ∨ s.state = .ready ∨ s.state = .error) ∧
    (s.state = .error ↔ s.cause.code ≠ 0) ∧
    (s.state = .ready → ∃ t, s.trate = some t ∧ 1 ≤ t.toInt ∧ t.toInt ≤ 2 ^ 31 - 1)

/-- R47 and 93_implementation_defined.md part 2: no step from a state that meets the invariant stops; so no run
of the machine does, whatever the host sends. -/
def Obligations.EveryPacketHasAnOutcome : Prop :=
  (∀ s : State, Inv s → ∃ s', step s = .next s') ∧
  (∀ (events : List Event) (k : Nat), ∃ s', run k (start events) = .next s')

/-- R57: every packet on `OUTP` is a `BLK` or an `ERR` of the right form, an invariant of every step; each has
two header words and one of the two tags. -/
def Obligations.OutputPortFormKept : Prop :=
  PortOk State.reset ∧
  (∀ s s' : State, PortOk s → step s = .next s' → PortOk s') ∧
  (∀ p : OutPacket, PacketOk p → 2 ≤ p.length ∧
    ∃ h rest, p = h :: rest ∧ (h.toNat / 256 = 0x10 ∨ h.toNat / 256 = 0xE0))

/-- R35, R36, R42: a step takes one event, in order, and emits at most one packet, after all earlier ones. -/
def Obligations.OneEventOnePacketPerStep : Prop :=
  ∀ s s' : State, step s = .next s' → s'.cmd = s.cmd.tail ∧
    (s'.outp = s.outp ∨ ∃ p, s'.outp = s.outp ++ [p])

/-! ### Output packets -/

/-- R58: the words of a `BLK` packet. -/
def Obligations.BlkPacketWords : Prop :=
  (∀ out : List OutWord, out.length < 2 ^ 24 →
    (blkPacket out).length = 2 + out.length ∧
    ∃ h0 h1, blkPacket out = h0 :: h1 :: out ∧ h0.toNat / 256 = 0x10 ∧
      h0.toNat % 256 = out.length / 65536 ∧ h1.toNat = out.length % 65536) ∧
  blkPacket [0x4000, 0xC001] = [0x1000, 0x0002, 0x4000, 0xC001] ∧
  blkPacket [] = [0x1000, 0x0000]

/-- R59: the words of an `ERR` packet. -/
def Obligations.ErrPacketWords : Prop :=
  errPacket .cfgTarget = [0xE000, 0x0001] ∧ errPacket .cfgRates = [0xE000, 0x0002] ∧
  errPacket .protocol = [0xE000, 0x0003] ∧ errPacket .illegal = [0xE000, 0x0004]

/-- R60: output samples are two's complement patterns. -/
def Obligations.OutputSamplePattern : Prop :=
  (∀ q : ℤ, -32768 ≤ q → q ≤ 32767 → ((toI16 q).toNat : ℤ) = q % 65536 ∧ (toI16 q).toInt = q) ∧
  (∀ p : OutWord, p.toInt = if p.toNat < 32768 then (p.toNat : ℤ) else (p.toNat : ℤ) - 65536) ∧
  toI16 0 = 0x0000 ∧ toI16 1 = 0x0001 ∧ toI16 (-1) = 0xFFFF ∧ toI16 32767 = 0x7FFF ∧ toI16 (-32767) = 0x8001 ∧
  toI16 (-32768) = 0x8000 ∧ toI16 16384 = 0x4000 ∧ toI16 (-16383) = 0xC001

/-- R31, R106: every emitted sample is the quantizer's integer; the narrowing loses nothing. -/
def Obligations.NarrowingKeepsTheSample : Prop :=
  ∀ w : Word, (toI16 (qnt w)).toInt = qnt w ∧ -32768 ≤ qnt w ∧ qnt w ≤ 32767

/-! ### The resampler (spec/41_resample.md) -/

/-- R81: `LEN` is the rounded quotient of the length by the exact ratio. -/
def Obligations.LengthIsRoundedQuotient : Prop :=
  (∀ n r t : Nat, 1 ≤ t → t ≤ r →
    (outLen n r t : ℤ) = roundHalfUp ((n : ℚ) / ((r : ℚ) / (t : ℚ))) ∧
    (outLen n r t : ℤ) = ⌊((n * t : Nat) : ℚ) / (r : ℚ) + 1 / 2⌋) ∧
  outLen 600 48000 8000 = 100 ∧ outLen 128 44100 8000 = 23 ∧ outLen 3 48000 8000 = 1

/-- R83: `SEL` is the clamped, rounded product of the index with the exact ratio. -/
def Obligations.SelectionIsClampedRound : Prop :=
  (∀ i n r t : Nat, 1 ≤ t → t ≤ r → 1 ≤ n → i < outLen n r t →
    (srcIndex i n r t : ℤ) = clamp (roundHalfUp ((i : ℚ) * ((r : ℚ) / (t : ℚ)))) 0 ((n : ℤ) - 1)) ∧
  srcIndex 1 600 48000 8000 = 6 ∧ srcIndex 1 128 44100 8000 = 6 ∧ srcIndex 1 10 12000 8000 = 2 ∧
  srcIndex 3 10 12000 8000 = 5

/-- R82: the laws of `LEN`. -/
def Obligations.LawsOfLength : Prop :=
  ∀ r t : Nat, 1 ≤ t → t ≤ r →
    outLen 0 r t = 0 ∧
    (∀ n, outLen n r r = n) ∧
    (∀ n, 0 ≤ outLen n r t ∧ outLen n r t ≤ n) ∧
    (∀ n m, n ≤ m → outLen n r t ≤ outLen m r t) ∧
    ((∀ n, 1 ≤ n → (outLen n r t = 0 ↔ 2 * n * t < r)) ∧
      outLen 2 48000 8000 = 0 ∧ outLen 1 48000 8000 = 0) ∧
    (∀ n k, r = k * t → outLen n r t = (2 * n + k) / (2 * k))

/-- R85: the laws of `SEL`. -/
def Obligations.LawsOfSelection : Prop :=
  (∀ n r t : Nat, 1 ≤ t → t ≤ r → 1 ≤ n →
    rawIndex 0 r t = 0 ∧
    (∀ i, rawIndex i r t + 1 ≤ rawIndex (i + 1) r t ∧ i ≤ rawIndex i r t) ∧
    (∀ i, i < outLen n r t → rawIndex i r t ≤ n - 1 ∧ srcIndex i n r t = rawIndex i r t) ∧
    (r = t → ∀ i, i < outLen n r t → srcIndex i n r t = i) ∧
    (∀ k, r = k * t → ∀ i, i < outLen n r t → srcIndex i n r t = i * k) ∧
    (∀ i, rawIndex (i + 1) r t = rawIndex i r t + r / t ∨
      rawIndex (i + 1) r t = rawIndex i r t + (r / t + 1)) ∧
    (∀ i m, 2 * i * r = (2 * m + 1) * t → rawIndex i r t = m + 1)) ∧
  (List.range 10).map (fun i => rawIndex i 44100 8000) = [0, 6, 11, 17, 22, 28, 33, 39, 44, 50]

/-- R47, R84: `SEL` is used only where the block has a sample, and never leaves the block. -/
def Obligations.SelectionStaysInBlock : Prop :=
  ∀ n r t i : Nat, 1 ≤ t → t ≤ r → i < outLen n r t → 1 ≤ n ∧ 0 ≤ srcIndex i n r t ∧ srcIndex i n r t ≤ n - 1

/-- R86: the widths of the resampler's intermediate values and results. -/
def Obligations.ResamplerWidths : Prop :=
  ∀ n r t : Nat, n ≤ 2 ^ 24 - 1 → 1 ≤ t → t ≤ r → r ≤ 2 ^ 31 - 1 →
    2 * n * t + r < 2 ^ 57 ∧ outLen n r t < 2 ^ 24 ∧
    ∀ i, i < outLen n r t → 2 * i * r + t < 2 ^ 57 ∧ srcIndex i n r t < 2 ^ 24

/-- R138, the case in which the stream is seamless: if `NIN * TRATE` is a multiple of `NRATE`, the block of a
concatenated input is the concatenation of the two blocks. -/
def Obligations.SeamlessSplit : Prop :=
  ∀ (r t m : Nat) (x y : List Word), 1 ≤ t → t ≤ r → x.length * t = m * r →
    outputBlock r t (x ++ y) = outputBlock r t x ++ outputBlock r t y

/-! ### The quantizer (spec/42_quantize.md) -/

/-- R6, R7: `round` is the floor of the value plus one half, exactly; `clamp` and both on the infinities. -/
def Obligations.RoundAndClampAsDefined : Prop :=
  (∀ x : ℚ, roundHalfUp x = ⌊x + 1 / 2⌋) ∧
  roundHalfUp (32767 / 2) = 16384 ∧ roundHalfUp (-32767 / 2) = -16383 ∧ roundHalfUp (1 / 2) = 1 ∧
  roundHalfUp (-1 / 2) = 0 ∧
  Extended.posInf.round = .posInf ∧ Extended.negInf.round = .negInf ∧
  (∀ x lo hi : ℤ, lo ≤ hi →
    clamp x lo hi = max lo (min x hi) ∧ Extended.posInf.clamp lo hi = hi ∧ Extended.negInf.clamp lo hi = lo)

/-- R56: the value of a sample pattern, class by class, and the reference patterns. -/
def Obligations.SampleValueIsBinary32 : Prop :=
  (∀ w : Word,
    let s : ℕ := w.toNat / 2 ^ 31
    let e : ℕ := w.toNat / 2 ^ 23 % 256
    let f : ℕ := w.toNat % 2 ^ 23
    (e = 0 → f = 0 → sampleValue w = .number (.fin 0)) ∧
    (e = 0 → f ≠ 0 → sampleValue w = .number (.fin ((-1) ^ s * (f : ℚ) * (2 : ℚ) ^ (-149 : ℤ)))) ∧
    (1 ≤ e → e ≤ 254 →
      sampleValue w = .number (.fin ((-1) ^ s * (2 ^ 23 + f : ℚ) * (2 : ℚ) ^ ((e : ℤ) - 150)))) ∧
    (e = 255 → f = 0 → sampleValue w = .number (if s = 0 then .posInf else .negInf)) ∧
    (e = 255 → f ≠ 0 → sampleValue w = .nan)) ∧
  sampleValue 0x3F800000 = .number (.fin 1) ∧ sampleValue 0xBF800000 = .number (.fin (-1)) ∧
  sampleValue 0x3F000000 = .number (.fin (1 / 2)) ∧ sampleValue 0xBF000000 = .number (.fin (-1 / 2)) ∧
  sampleValue 0x00000000 = .number (.fin 0) ∧ sampleValue 0x80000000 = .number (.fin 0) ∧
  sampleValue 0x7F800000 = .number .posInf ∧ sampleValue 0xFF800000 = .number .negInf ∧
  sampleValue 0x7FC00000 = .nan

/-- R96: the integer algorithm gives the quantizer's value for every one of the `2^32` patterns. -/
def Obligations.QuantizerEqualsIntegerAlgorithm : Prop := ∀ w : Word, qntInteger w = qnt w

/-- R95 (a) and (b): the range, and that the quantizer is monotone on everything that is not a NaN. -/
def Obligations.QuantizerMonotone : Prop :=
  (∀ w : Word, -32768 ≤ qnt w ∧ qnt w ≤ 32767) ∧
  (∀ (w1 w2 : Word) (v1 v2 : Extended ℚ), sampleValue w1 = .number v1 → sampleValue w2 = .number v2 →
    v1.le v2 → qnt w1 ≤ qnt w2)

/-- R92: infinities and large magnitudes clip. -/
def Obligations.LargeMagnitudesClip : Prop :=
  qnt 0x7F800000 = 32767 ∧ qnt 0xFF800000 = -32768 ∧
  (∀ (w : Word) (v : ℚ), sampleValue w = .number (.fin v) →
    (32766 + 1 / 2 ≤ v * 32767 → qnt w = 32767) ∧ (v * 32767 < -32767 - 1 / 2 → qnt w = -32768))

/-- R93: every NaN gives 0. -/
def Obligations.NanGivesZero : Prop :=
  ∀ w : Word, w.toNat / 2 ^ 23 % 256 = 255 → w.toNat % 2 ^ 23 ≠ 0 → qnt w = 0

/-- R94: zeros, subnormals and small magnitudes give 0, exactly below one half; the thresholds as patterns. -/
def Obligations.SmallMagnitudesGiveZero : Prop :=
  qnt 0x00000000 = 0 ∧ qnt 0x80000000 = 0 ∧
  (∀ w : Word, w.toNat / 2 ^ 23 % 256 = 0 → qnt w = 0) ∧
  (∀ (w : Word) (v : ℚ), sampleValue w = .number (.fin v) →
    (qnt w = 0 ↔ -(1 / 2) ≤ v * 32767 ∧ v * 32767 < 1 / 2) ∧ v * 32767 ≠ -(1 / 2)) ∧
  (qnt 0x37800101 = 1 ∧ qnt 0x37800100 = 0 ∧
    ∀ w : Word, w.toNat < 2 ^ 31 → qnt w = 1 → 0x37800101 ≤ w.toNat) ∧
  (qnt 0xB7800101 = -1 ∧ qnt 0xB7800100 = 0 ∧
    ∀ w : Word, 2 ^ 31 ≤ w.toNat → qnt w = -1 → 0xB7800101 ≤ w.toNat)

/-- R95 (c) and (e): the fixed points, and the clip thresholds as patterns, exactly. -/
def Obligations.ClipThresholdPatterns : Prop :=
  qnt 0x3F800000 = 32767 ∧ qnt 0xBF800000 = -32767 ∧
  (∀ w : Word, w.toNat ≤ 0x7F800000 → (qnt w = 32767 ↔ 0x3F7FFF00 ≤ w.toNat)) ∧
  (∀ w : Word, 0x80000000 ≤ w.toNat → w.toNat ≤ 0xFF800000 → (qnt w = -32768 ↔ 0xBF800081 ≤ w.toNat))

/-- R95 (d): where exact halves occur, and that the rounding convention matters for exactly one pattern. -/
def Obligations.RoundingConventionMattersOnce : Prop :=
  (∀ (w : Word) (v : ℚ), sampleValue w = .number (.fin v) →
    ((∃ k : ℤ, v * 32767 = k + 1 / 2) ↔ ∃ j : ℤ, v = (2 * j + 1) / 2)) ∧
  qnt 0x3F000000 = 16384 ∧ qnt 0xBF000000 = -16383 ∧
  (∀ w : Word, Claims.quantizeWith Claims.roundHalfAway w ≠ qnt w ↔ w = 0xBF000000) ∧
  (∀ w : Word, Claims.quantizeWith Claims.roundHalfToEven w ≠ qnt w ↔ w = 0xBF000000) ∧
  Claims.quantizeWith Claims.roundHalfAway 0xBF000000 = -16384 ∧
  Claims.quantizeWith Claims.roundHalfToEven 0xBF000000 = -16384

/-- R95 (f): the quantizer is odd inside the clip bounds but for `+0.5` and `-0.5`, and not beyond them. -/
def Obligations.QuantizerOddSymmetry : Prop :=
  (∀ (w : Word) (v : ℚ), sampleValue w = .number (.fin v) → |v * 32767| < 32767 + 1 / 2 →
    (qnt (w ^^^ 0x80000000) = -qnt w ↔ w ≠ 0x3F000000 ∧ w ≠ 0xBF000000)) ∧
  qnt 0x40000000 = 32767 ∧ qnt 0xC0000000 = -32768

/-! ### Runs -/

/-- R133, R42, R88, R108: after a reset and a legal `CONFIG`, every `PROCESS` at a supported rate emits its own
block, in order, and nothing is carried from one to the next. Empty blocks go by the parameter `EMIT_EMPTY`. -/
def Obligations.SessionEmitsBlocksInOrder : Prop :=
  ∀ (s : State) (t : Word) (blocks : List (Word × List Word)), 1 ≤ t.toInt →
    (∀ b ∈ blocks, t.toInt ≤ b.1.toInt ∧ b.2.length < 2 ^ 24) →
    s.cmd = .reset :: .packet [0x01000000, t] ::
      blocks.map (fun b => .packet (encode (.process b.1 b.2))) →
    run (2 + blocks.length) s = .next {
      trate := some t, state := .ready, cause := .none, cmd := [],
      outp := s.outp ++
        ((blocks.map fun b => outputBlock b.1.toInt.toNat t.toInt.toNat b.2).filter
          fun out => !out.isEmpty || Config.emitEmpty).map blkPacket }

/-- R71, R20, R42: what a run does depends on the registers and the events alone; what was emitted before makes no
difference to it. -/
def Obligations.RunsIgnoreEarlierOutput : Prop :=
  ∀ (k : Nat) (s s' : State), run k s = .next s' → ∃ emitted : List OutPacket,
    s'.outp = s.outp ++ emitted ∧
    ∀ o : List OutPacket, run k { s with outp := o } = .next { s' with outp := o ++ emitted }

/-- R134, R117: a run that starts outside `ERROR` went wrong, by its `ERR` packets, exactly where `STATE` became
`ERROR`. -/
def Obligations.WentWrongIffErrorEntered : Prop :=
  ∀ (k : Nat) (s s' : State), s.outp = [] → s.state ≠ .error → run k s = .next s' →
    (wentWrong s' = true ↔ ∃ j, j ≤ k ∧ ∃ u, run j s = .next u ∧ u.state = .error)

/-! ### Listings -/

/-- R66: after a `CONFIG t` line of the listing, `QUANTIZE` stands for the `PROCESS` at rate `t` and has no packet of
its own; no listing assembles in which it stands before every `CONFIG`. That other lines between the two make no
difference, and that of several `CONFIG` lines the last one counts, is the model's choice (log entry 16). -/
def Obligations.QuantizeExpandsToProcess : Prop :=
  (∀ (t : Word) (x : List Word),
    assemble none [.command (.config t), .quantize x] =
      assemble none [.command (.config t), .command (.process t x)] ∧
    (x.length ≤ 2 ^ 24 - 1 → assemble none [.command (.config t), .quantize x] =
      some [.packet (encode (.config t)), .packet (encode (.process t x))])) ∧
  (∀ (before between after : List Line) (t : Word) (x : List Word), Claims.noConfig between →
    assemble none (before ++ .command (.config t) :: between ++ .quantize x :: after) =
      assemble none (before ++ .command (.config t) :: between ++ .command (.process t x) :: after)) ∧
  (∀ (before after : List Line) (x : List Word), Claims.noConfig before →
    assemble none (before ++ .quantize x :: after) = none)

/-- R64: a command line assembles to one packet that decodes to the command; the two directives; lines as text. -/
def Obligations.LinesAssembleToTheirCommands : Prop :=
  (∀ (rate : Option Word) (i : Instr), i.wellFormed = true →
    ∃ p, lineEvents rate (.command i) = some [.packet p] ∧ decode p = .command i) ∧
  (∀ rate, lineEvents rate .reset = some [.reset]) ∧
  (∀ rate words, lineEvents rate (.raw words) = some [.packet words]) ∧
  parseLine "CONFIG  8000 ; open".toList = some (.command (.config 8000)) ∧
  parseLine "PROCESS -1, [0x3F000000 * 2, 0xBF000000]".toList =
    some (.command (.process 0xFFFFFFFF [0x3F000000, 0x3F000000, 0xBF000000])) ∧
  parseLine "STOP".toList = some (.command .stop)
end

