-- ==== Sys2Proof/Laws/State.lean ====
section
/-! SUPPORT. One lemma per field per update of the state, each true by unfolding, so that no later proof unfolds
a record update. -/

namespace Sys2Proof.Machine

@[simp] theorem emit_trate (p : OutPacket) (s : State) : (emit p s).trate = s.trate := rfl
@[simp] theorem emit_state (p : OutPacket) (s : State) : (emit p s).state = s.state := rfl
@[simp] theorem emit_cause (p : OutPacket) (s : State) : (emit p s).cause = s.cause := rfl
@[simp] theorem emit_cmd (p : OutPacket) (s : State) : (emit p s).cmd = s.cmd := rfl
@[simp] theorem emit_outp (p : OutPacket) (s : State) : (emit p s).outp = s.outp ++ [p] := rfl

@[simp] theorem raiseError_trate (c : Cause) (s : State) : (raiseError c s).trate = s.trate := rfl
@[simp] theorem raiseError_state (c : Cause) (s : State) : (raiseError c s).state = .error := rfl
@[simp] theorem raiseError_cause (c : Cause) (s : State) : (raiseError c s).cause = c := rfl
@[simp] theorem raiseError_cmd (c : Cause) (s : State) : (raiseError c s).cmd = s.cmd := rfl
@[simp] theorem raiseError_outp (c : Cause) (s : State) : (raiseError c s).outp = s.outp ++ [errPacket c] := rfl

@[simp] theorem discardSession_trate (s : State) : (discardSession s).trate = none := rfl
@[simp] theorem discardSession_state (s : State) : (discardSession s).state = .unconf := rfl
@[simp] theorem discardSession_cause (s : State) : (discardSession s).cause = .none := rfl
@[simp] theorem discardSession_cmd (s : State) : (discardSession s).cmd = s.cmd := rfl
@[simp] theorem discardSession_outp (s : State) : (discardSession s).outp = s.outp := rfl

@[simp] theorem openSession_trate (t : Word) (s : State) : (openSession t s).trate = some t := rfl
@[simp] theorem openSession_state (t : Word) (s : State) : (openSession t s).state = .ready := rfl
@[simp] theorem openSession_cause (t : Word) (s : State) : (openSession t s).cause = s.cause := rfl
@[simp] theorem openSession_cmd (t : Word) (s : State) : (openSession t s).cmd = s.cmd := rfl
@[simp] theorem openSession_outp (t : Word) (s : State) : (openSession t s).outp = s.outp := rfl

@[simp] theorem hardwareReset_trate (s : State) : (hardwareReset s).trate = none := rfl
@[simp] theorem hardwareReset_state (s : State) : (hardwareReset s).state = .unconf := rfl
@[simp] theorem hardwareReset_cause (s : State) : (hardwareReset s).cause = .none := rfl
@[simp] theorem hardwareReset_cmd (s : State) : (hardwareReset s).cmd = s.cmd := rfl
@[simp] theorem hardwareReset_outp (s : State) : (hardwareReset s).outp = s.outp := rfl

@[simp] theorem idle_eq (s : State) : idle s = s := rfl

@[simp] theorem withFetchWord_cmd (s : State) (nbits w : Nat) :
    (s.withFetchWord nbits w).cmd = .packet (tableWords nbits w) :: s.cmd := rfl

end Sys2Proof.Machine
end

