-- ==== Sys2Proof/Laws/Arith.lean ====
section
/-! SUPPORT. The arithmetic of `round`, `clamp` and the sample values, and the block as a list. -/

namespace Sys2Proof.Machine

/-- A fraction is rounded by one integer division. -/
theorem roundHalfUp_div (a : Int) (b : Nat) (hb : 0 < b) :
    roundHalfUp ((a : ℚ) / (b : ℚ)) = (2 * a + b) / (2 * b) := by
  have hb' : (b : ℚ) ≠ 0 := by exact_mod_cast hb.ne'
  have h : ((a : ℚ) / (b : ℚ)) + 1 / 2 = ((2 * a + b : ℤ) : ℚ) / ((2 * b : ℕ) : ℚ) := by
    push_cast
    field_simp
  rw [roundHalfUp, h]
  change ⌊((2 * a + b : ℤ) : ℚ) / ((2 * b : ℕ) : ℚ)⌋ = _
  rw [Rat.floor_intCast_div_natCast]
  push_cast
  rfl

/-- A clamped value lies within the bounds. -/
theorem clamp_mem (x lo hi : Int) (h : lo ≤ hi) : lo ≤ clamp x lo hi ∧ clamp x lo hi ≤ hi := by
  unfold clamp
  split
  · omega
  · split <;> omega

/-- A value within the bounds is not changed. -/
theorem clamp_of_mem (x lo hi : Int) (h1 : lo ≤ x) (h2 : x ≤ hi) : clamp x lo hi = x := by
  unfold clamp
  rw [if_neg (by omega), if_neg (by omega)]

@[simp] theorem length_outputBlock (r t : Nat) (x : List Word) :
    (outputBlock r t x).length = outLen x.length r t := by
  simp [outputBlock]

end Sys2Proof.Machine
end

