-- ==== Sys2Proof/Laws/Decode.lean ====
section
/-! SUPPORT. The header fields as numbers, and as parts of the headers that `encode` writes. -/

namespace Sys2Proof

theorem headerOp_toNat (h : Word) : (headerOp h).toNat = h.toNat / 2 ^ 24 := by
  have := h.isLt
  simp only [headerOp, BitVec.extractLsb'_toNat, Nat.shiftRight_eq_div_pow]
  omega

theorem headerLen_toNat (h : Word) : (headerLen h).toNat = h.toNat % 2 ^ 24 := by
  simp [headerLen, BitVec.extractLsb'_toNat]

theorem header_toNat (op : BitVec 8) (len : BitVec 24) :
    (header op len).toNat = op.toNat * 2 ^ 24 + len.toNat := by
  have h1 := op.isLt
  have h2 := len.isLt
  rw [header, BitVec.toNat_ofNat, Nat.mod_eq_of_lt (by omega)]

@[simp] theorem headerOp_header (op : BitVec 8) (len : BitVec 24) : headerOp (header op len) = op := by
  apply BitVec.eq_of_toNat_eq
  have := len.isLt
  rw [headerOp_toNat, header_toNat]
  omega

@[simp] theorem headerLen_header (op : BitVec 8) (len : BitVec 24) : headerLen (header op len) = len := by
  apply BitVec.eq_of_toNat_eq
  have := len.isLt
  rw [headerLen_toNat, header_toNat]
  omega

end Sys2Proof
end

