-- ==== Sys2Proof/Laws/Listing.lean ====
section
/-! SUPPORT. What the lines of a listing do to the rate and to the events (spec/30_encoding.md R64, R66). -/

namespace Sys2Proof.Machine

@[simp] theorem rateAfter_config (rate : Option Word) (t : Word) :
    rateAfter rate (.command (.config t)) = some t := rfl

@[simp] theorem rateAfter_process (rate : Option Word) (r : Word) (x : List Word) :
    rateAfter rate (.command (.process r x)) = rate := rfl

@[simp] theorem rateAfter_stop (rate : Option Word) : rateAfter rate (.command .stop) = rate := rfl

@[simp] theorem rateAfter_blank (rate : Option Word) : rateAfter rate .blank = rate := rfl

@[simp] theorem rateAfter_quantize (rate : Option Word) (x : List Word) :
    rateAfter rate (.quantize x) = rate := rfl

@[simp] theorem rateAfter_reset (rate : Option Word) : rateAfter rate .reset = rate := rfl

@[simp] theorem rateAfter_raw (rate : Option Word) (words : List Word) : rateAfter rate (.raw words) = rate := rfl

/-- A line changes the rate only if it is a `CONFIG`. -/
theorem rateAfter_cases (rate : Option Word) (l : Line) :
    rateAfter rate l = rate ∨ ∃ t, l = .command (.config t) ∧ rateAfter rate l = some t := by
  cases l with
  | command i =>
    cases i with
    | config t => exact .inr ⟨t, rfl, rfl⟩
    | process r x => exact .inl rfl
    | stop => exact .inl rfl
  | blank => exact .inl rfl
  | quantize x => exact .inl rfl
  | reset => exact .inl rfl
  | raw words => exact .inl rfl

/-- Lines without a `CONFIG` leave the rate. -/
theorem foldl_rateAfter_of_no_config {ls : List Line} (h : ∀ t, Line.command (.config t) ∉ ls)
    (rate : Option Word) : ls.foldl rateAfter rate = rate := by
  induction ls generalizing rate with
  | nil => rfl
  | cons l ls ih =>
    obtain hl | ⟨t, rfl, -⟩ := rateAfter_cases rate l
    · rw [List.foldl_cons, hl]
      exact ih (fun t ht => h t (List.mem_cons_of_mem _ ht)) rate
    · exact absurd List.mem_cons_self (h t)

@[simp] theorem assemble_nil (rate : Option Word) : assemble rate [] = some [] := rfl

/-- A listing of two parts assembles part by part, the second at the rate that the first one leaves. -/
theorem assemble_append (rate : Option Word) (ls ms : List Line) :
    assemble rate (ls ++ ms) =
      (assemble rate ls).bind fun now => (assemble (ls.foldl rateAfter rate) ms).map (now ++ ·) := by
  induction ls generalizing rate with
  | nil => simp
  | cons l ls ih =>
    simp only [List.cons_append, assemble, List.foldl_cons, ih]
    cases lineEvents rate l <;> cases assemble (rateAfter rate l) ls <;>
      cases assemble (ls.foldl rateAfter (rateAfter rate l)) ms <;> simp

end Sys2Proof.Machine
end

