-- ==== Sys2Proof/Laws/Ops.lean ====
section
/-! SUPPORT. For each shared operation, once, everything it can do; and what one step can do. -/

namespace Sys2Proof.Machine

/-- The two things that ending a `PROCESS` can do. -/
theorem emitBlock_cases (out : List OutWord) (s : State) :
    ((0 < out.length ∨ Config.emitEmpty = true) ∧ emitBlock out s = emit (blkPacket out) s) ∨
      (out = [] ∧ Config.emitEmpty = false ∧ emitBlock out s = s) := by
  unfold emitBlock
  split
  · exact .inl ⟨‹_›, rfl⟩
  · next h => exact .inr (by simpa using h)

@[simp] theorem emitBlock_trate (out : List OutWord) (s : State) : (emitBlock out s).trate = s.trate := by
  obtain ⟨_, h⟩ | ⟨_, _, h⟩ := emitBlock_cases out s <;> simp [h]

@[simp] theorem emitBlock_state (out : List OutWord) (s : State) : (emitBlock out s).state = s.state := by
  obtain ⟨_, h⟩ | ⟨_, _, h⟩ := emitBlock_cases out s <;> simp [h]

@[simp] theorem emitBlock_cause (out : List OutWord) (s : State) : (emitBlock out s).cause = s.cause := by
  obtain ⟨_, h⟩ | ⟨_, _, h⟩ := emitBlock_cases out s <;> simp [h]

@[simp] theorem emitBlock_cmd (out : List OutWord) (s : State) : (emitBlock out s).cmd = s.cmd := by
  obtain ⟨_, h⟩ | ⟨_, _, h⟩ := emitBlock_cases out s <;> simp [h]

/-- `TRATE` is read exactly where it holds a legal value. -/
theorem targetRate_eq_some (s : State) (n : Int) :
    targetRate s = some n ↔ ∃ t, s.trate = some t ∧ 1 ≤ rateOf t ∧ rateOf t = n := by
  unfold targetRate
  split
  · next t h =>
    constructor
    · intro hn
      split at hn
      · exact ⟨t, h, ‹_›, by simpa using hn⟩
      · cases hn
    · rintro ⟨t', ht', hpos, rfl⟩
      obtain rfl : t = t' := by rw [h] at ht'; exact Option.some.inj ht'
      rw [if_pos hpos]
  · next h => simp [h]

/-- An illegal packet is dropped in `ERROR` and raises `ILLEGAL` elsewhere. -/
theorem illegalPacket_cases (s : State) :
    (s.state = .error ∧ illegalPacket s = s) ∨
      (s.state ≠ .error ∧ illegalPacket s = raiseError .illegal s) := by
  unfold illegalPacket
  split
  · exact .inl ⟨‹_›, rfl⟩
  · next h => exact .inr ⟨h, rfl⟩

/-- What the next event can be. -/
theorem fetch_cases (s : State) :
    (s.cmd = [] ∧ fetch s = .nothing) ∨
    (∃ rest, s.cmd = .reset :: rest ∧ fetch s = .reset { s with cmd := rest }) ∨
    (∃ p rest i, s.cmd = .packet p :: rest ∧ decode p = .command i ∧
      fetch s = .command i { s with cmd := rest }) ∨
    (∃ p rest why, s.cmd = .packet p :: rest ∧ decode p = .illegal why ∧
      fetch s = .illegal why { s with cmd := rest }) := by
  unfold fetch
  split
  · exact .inl ⟨‹_›, rfl⟩
  · next rest h => exact .inr (.inl ⟨rest, h, rfl⟩)
  · next p rest h =>
    split
    · next i hi => exact .inr (.inr (.inl ⟨p, rest, i, h, hi, rfl⟩))
    · next why hw => exact .inr (.inr (.inr ⟨p, rest, why, h, hw, rfl⟩))

/-- What one step can do, by the kind of the next event. -/
theorem step_eq_of_event (s : State) :
    (s.cmd = [] ∧ step s = .next (idle s)) ∨
    (∃ rest, s.cmd = .reset :: rest ∧ step s = .next (hardwareReset { s with cmd := rest })) ∨
    (∃ p rest i, s.cmd = .packet p :: rest ∧ decode p = .command i ∧
      step s = exec i { s with cmd := rest }) ∨
    (∃ p rest why, s.cmd = .packet p :: rest ∧ decode p = .illegal why ∧
      step s = .next (illegalPacket { s with cmd := rest })) := by
  obtain ⟨h, hf⟩ | ⟨rest, h, hf⟩ | ⟨p, rest, i, h, hd, hf⟩ | ⟨p, rest, why, h, hd, hf⟩ := fetch_cases s
  · exact .inl ⟨h, by simp only [step, hf]⟩
  · exact .inr (.inl ⟨rest, h, by simp only [step, hf]⟩)
  · exact .inr (.inr (.inl ⟨p, rest, i, h, hd, by simp only [step, hf]⟩))
  · exact .inr (.inr (.inr ⟨p, rest, why, h, hd, by simp only [step, hf]⟩))

/-- Everything a command can do where it answers a next state: it is dropped in `ERROR`; it raises an error; it
opens a session, discards one, or ends a transform. -/
theorem exec_next_cases (i : Instr) (s s' : State) (h : exec i s = .next s') :
    (s.state = .error ∧ i ≠ .stop ∧ s' = s) ∨
    (i = .stop ∧ s' = discardSession s) ∨
    (s.state = .unconf ∧ ∃ t, i = .config t ∧
      (rateOf t ≤ 0 ∧ s' = raiseError .cfgTarget s ∨ 1 ≤ rateOf t ∧ s' = openSession t s)) ∨
    (s.state = .ready ∧ ∃ t, i = .config t ∧ s' = raiseError .protocol s) ∨
    (s.state = .unconf ∧ ∃ r x, i = .process r x ∧ s' = raiseError .protocol s) ∨
    (s.state = .ready ∧ ∃ r x t, i = .process r x ∧ s.trate = some t ∧ 1 ≤ rateOf t ∧
      (rateOf r < rateOf t ∧ s' = raiseError .cfgRates s ∨
        rateOf t ≤ rateOf r ∧ s' = emitBlock (outputBlock (rateOf r).toNat (rateOf t).toNat x) s)) := by
  cases i with
  | stop =>
    simp only [exec, execStop, Host.Outcome.next.injEq] at h
    exact .inr (.inl ⟨rfl, h.symm⟩)
  | config t =>
    simp only [exec, execConfig] at h
    split at h
    · next hs => exact .inl ⟨hs, by simp, by simpa using h.symm⟩
    · next hs => exact .inr (.inr (.inr (.inl ⟨hs, t, rfl, by simpa using h.symm⟩)))
    · next hs =>
      refine .inr (.inr (.inl ⟨hs, t, rfl, ?_⟩))
      split at h
      · exact .inl ⟨‹_›, by simpa using h.symm⟩
      · exact .inr ⟨by omega, by simpa using h.symm⟩
  | process r x =>
    simp only [exec, execProcess] at h
    split at h
    · next hs => exact .inl ⟨hs, by simp, by simpa using h.symm⟩
    · next hs => exact .inr (.inr (.inr (.inr (.inl ⟨hs, r, x, rfl, by simpa using h.symm⟩))))
    · next hs =>
      refine .inr (.inr (.inr (.inr (.inr ⟨hs, r, x, ?_⟩))))
      split at h
      · cases h
      · next n hn =>
        obtain ⟨t, ht, hpos, rfl⟩ := (targetRate_eq_some s n).1 hn
        refine ⟨t, rfl, ht, hpos, ?_⟩
        split at h
        · exact .inl ⟨‹_›, by simpa using h.symm⟩
        · exact .inr ⟨by omega, by simpa using h.symm⟩

end Sys2Proof.Machine
end

