-- ==== Sys2Proof/Laws/PerInstr.lean ====
section
/-! SUPPORT. Statements made for each command, one lemma per constructor. -/

namespace Sys2Proof.Laws

/-- The length of a command is known from the first word of its packet (R63). -/
def LengthFromHeader.Statement (i : Instr) : Prop :=
  i.wellFormed = true → ∃ h rest, encode i = h :: rest ∧ (encode i).length = packetLength h

theorem LengthFromHeader.config (t : Word) : LengthFromHeader.Statement (.config t) := fun _ =>
  ⟨_, _, rfl, rfl⟩

theorem LengthFromHeader.process (r : Word) (x : List Word) : LengthFromHeader.Statement (.process r x) := by
  intro h
  refine ⟨_, _, rfl, ?_⟩
  have hx : x.length < 2 ^ 24 := by
    simp only [Instr.wellFormed, Instr.wfError] at h
    split at h
    · assumption
    · cases h
  simp only [packetLength, headerOp_header, headerLen_header, encode]
  simp
  omega

theorem LengthFromHeader.stop : LengthFromHeader.Statement .stop := fun _ => ⟨_, _, rfl, rfl⟩

end Sys2Proof.Laws
end

