-- ==== Sys2Proof/Laws/Run.lean ====
section
/-! SUPPORT. Runs, one step at a time. -/

namespace Sys2Proof.Machine

@[simp] theorem run_zero (s : State) : run 0 s = .next s := rfl

/-- A run whose first step answers a next state goes on from there. -/
theorem run_succ_of_next {s s' : State} (h : step s = .next s') (k : Nat) : run (k + 1) s = run k s' := by
  simp only [run, Host.Core.run, Sys2Proof.core]
  rw [h]

/-- A run that answers a next state after `k + 1` steps took a first step to a next state. -/
theorem run_succ_next_cases {s s' : State} {k : Nat} (h : run (k + 1) s = .next s') :
    ∃ u, step s = .next u ∧ run k u = .next s' := by
  cases hs : step s with
  | next u => exact ⟨u, rfl, by rw [run_succ_of_next hs] at h; exact h⟩
  | fault r =>
    simp only [run, Host.Core.run, Sys2Proof.core] at h
    rw [hs] at h
    cases h
  | refused r =>
    simp only [run, Host.Core.run, Sys2Proof.core] at h
    rw [hs] at h
    cases h

/-- An induction over a run: what holds at its start and is kept by every step holds at its end. -/
theorem run_induction {P : State → Prop} (keep : ∀ s s', P s → step s = .next s' → P s') :
    ∀ (k : Nat) {s s' : State}, P s → run k s = .next s' → P s' := by
  intro k
  induction k with
  | zero =>
    intro s s' hs h
    obtain rfl : s = s' := by simpa using h
    exact hs
  | succ k ih =>
    intro s s' hs h
    obtain ⟨u, hu, hk⟩ := run_succ_next_cases h
    exact ih (keep s u hs hu) hk

end Sys2Proof.Machine
end

