-- ==== Sys2Proof/Tests/Slice0.lean ====
section
/-! SUPPORT. Tests on fixed values, with expected results from spec/95_test_vectors.md or by hand from the rule
named; and one witness for the hypotheses of each statement that has any. -/

open Sys2Proof Sys2Proof.Machine

namespace Sys2Proof.Tests

/-- `READY` with a target rate and no event to come. -/
def ready (t : Word) : State := { State.reset with state := .ready, trate := some t }

/-- `ERROR` with a cause. -/
def failed (c : Cause) : State := { State.reset with state := .error, cause := c }

/-- A state with events to come. -/
def onInput (events : List Event) (s : State) : State := { s with cmd := events }

/-- The ramp of spec/95_test_vectors.md part 3: sample `k` is `k/16`. -/
def ramp : List Word :=
  [0x00000000, 0x3D800000, 0x3E000000, 0x3E400000, 0x3E800000, 0x3EA00000, 0x3EC00000, 0x3EE00000,
   0x3F000000, 0x3F100000, 0x3F200000, 0x3F300000]

/-! ### Well-formedness, decoding (R54, R55, R65; part 2.4) -/

theorem test_wellFormed_refuses_a_block_of_2_24_samples :
    (Instr.process 48000 (List.replicate (2 ^ 24) 0)).wfError = some .blockTooLong := by
  rw [Instr.wfError, if_neg]
  rw [List.length_replicate]
  decide

theorem test_wellFormed_takes_a_block_of_2_24_less_1_samples :
    (Instr.process 48000 (List.replicate (2 ^ 24 - 1) 0)).wfError = none := by
  rw [Instr.wfError, if_pos]
  rw [List.length_replicate]
  decide

theorem test_decode_config_bit_by_bit :
    decode [0b00000001_000000000000000000000000, 0b00000000000000000001111101000000] =
      .command (.config 8000) := by decide

theorem test_decode_process_bit_by_bit :
    decode [0b00000010_000000000000000000000010, 0b00000000000000001011101110000000,
      0b0_01111110_00000000000000000000000, 0b1_01111110_00000000000000000000000] =
      .command (.process 48000 [0x3F000000, 0xBF000000]) := by decide

theorem test_decode_stop_bit_by_bit :
    decode [0b00000011_000000000000000000000000] = .command .stop := by decide

theorem test_decode_negative_rate : decode [0x01000000, 0xFFFFFFFF] = .command (.config (-1)) := by decide

theorem test_decode_illegal_packets :
    [decode [0x01000000], decode [0x01000000, 0x1F40, 0], decode [0x01000001, 0x1F40],
     decode [0x02000003, 0xBB80, 0x3F000000], decode [0x02000000, 0xBB80, 0x3F000000], decode [0x02000000],
     decode [0x03000000, 0], decode [0x03000001], decode [0x00000000], decode [0x04000000], decode [0xFF000000],
     decode []] =
    [.illegal .wordCount, .illegal .wordCount, .illegal .reservedLen, .illegal .wordCount, .illegal .wordCount,
     .illegal .wordCount, .illegal .wordCount, .illegal .reservedLen, .illegal .unassignedOpcode,
     .illegal .unassignedOpcode, .illegal .unassignedOpcode, .illegal .noWords] := by decide

theorem test_encode_as_in_the_listings :
    encode (.config 8000) = [0x01000000, 0x00001F40] ∧ encode .stop = [0x03000000] ∧
    encode (.process 48000 [0x3F000000, 0xBF000000]) = [0x02000002, 0x0000BB80, 0x3F000000, 0xBF000000] := by
  decide

theorem test_table_words :
    decodeTableWord 64 (0x1F40 * 2 ^ 32 + 0x01000000) = some (.config 8000) ∧
    decodeTableWord 32 0x02000002 = some (.process 0 [0, 0]) ∧
    decodeTableWord 32 0x03000000 = some .stop ∧ decodeTableWord 32 0x04000000 = none := by decide

/-! ### One step of each command (parts 2.5 and 3) -/

theorem test_config_from_reset :
    nextState? (exec (.config 8000) State.reset) = some (ready 8000) := by decide

theorem test_config_negative_rate :
    nextState? (exec (.config (-1)) State.reset) =
      some { failed .cfgTarget with outp := [[0xE000, 0x0001]] } := by decide

-- P1.
theorem test_process_ratio_6 :
    nextState? (exec (.process 48000 ramp) (ready 8000)) =
      some { ready 8000 with outp := [[0x1000, 0x0002, 0x0000, 0x3000]] } := by decide +kernel

-- P2: the quantizer's corner cases at equal rates.
theorem test_process_equal_rates :
    nextState? (exec (.process 16000 [0x3F800000, 0xBF800000, 0x3F000000, 0xBF000000, 0x40000000, 0xC0000000,
      0x7F800000, 0xFF800000, 0x7FC00000, 0x80000000, 0x3F7FFF00, 0x3F7FFEFF, 0xBF800080, 0xBF800081, 0x37800101,
      0x37800100]) (ready 16000)) =
      some { ready 16000 with outp := [[0x1000, 0x0010, 0x7FFF, 0x8001, 0x4000, 0xC001, 0x7FFF, 0x8000, 0x7FFF,
        0x8000, 0x0000, 0x0000, 0x7FFF, 0x7FFE, 0x8001, 0x8000, 0x0001, 0x0000]] } := by decide +kernel

theorem test_stop_from_error : nextState? (exec .stop (failed .cfgRates)) = some State.reset := by decide

theorem test_step_takes_one_packet :
    nextState? (step (onInput [.packet [0x03000000], .reset] (ready 8000))) =
      some (onInput [.reset] State.reset) := by decide

theorem test_withFetchWord_runs_from_reset :
    nextState? (step (State.reset.withFetchWord 32 0x02000000)) =
      some { failed .protocol with outp := [[0xE000, 0x0003]] } := by decide

/-! ### The units -/

-- Part 2.1: zeros, subnormals, thresholds, halves, clipping, infinities, NaNs, exact against binary32 product.
theorem test_qnt_vectors :
    ([0x00000000, 0x80000000, 0x00000001, 0x007FFFFF, 0x37800100, 0x37800101, 0xB7800100, 0xB7800101, 0x3DCCCCCD,
      0x3E99999A, 0x3F000000, 0xBF000000, 0x3F7FFEFF, 0x3F7FFF00, 0x3F800000, 0xBF800000, 0xBF800080, 0xBF800081,
      0x7F7FFFFF, 0xFF7FFFFF, 0x7F800000, 0xFF800000, 0x7FC00000, 0xFFC00000, 0x7F800001, 0x3F670ECE, 0x3F1E1E3C,
      0xBC7D41FB, 0xBE5E7DBD] : List Word).map qnt =
    [0, 0, 0, 0, 0, 1, 0, -1, 3277, 9830, 16384, -16383, 32766, 32767, 32767, -32767, -32767, -32768, 32767, -32768,
     32767, -32768, 0, 0, 0, 29574, 20238, -507, -7120] := by decide +kernel

-- Part 2.2.
theorem test_len_vectors :
    [outLen 2 48000 8000, outLen 3 48000 8000, outLen 128 48000 8000, outLen 10 12000 8000, outLen 441 44100 8000,
     outLen 7 3 2, outLen 16777215 2147483647 2147483647, outLen 16777215 2147483647 1] =
    [0, 1, 21, 7, 80, 5, 16777215, 0] := by decide

-- Part 2.3.
theorem test_sel_vectors :
    (List.range 7).map (fun i => srcIndex i 10 12000 8000) = [0, 2, 3, 5, 6, 8, 9] ∧
    (List.range 23).map (fun i => srcIndex i 128 44100 8000) =
      [0, 6, 11, 17, 22, 28, 33, 39, 44, 50, 55, 61, 66, 72, 77, 83, 88, 94, 99, 105, 110, 116, 121] := by decide

-- R37: little-endian byte images.
theorem test_byte_images :
    packetBytes [0x01000000, 0x00001F40] = [0, 0, 0, 1, 0x40, 0x1F, 0, 0] ∧
    outPacketBytes [0x1000, 0x0002] = [0x00, 0x10, 0x02, 0x00] := by decide

-- R64: 0.1, 0.3 and -1.00001 are the patterns of part 2.1; 16777217 is a tie, to even.
theorem test_f32_of_decimals :
    [parseF32 "0.1".toList, parseF32 "0.3".toList, parseF32 "-1.00001".toList, parseF32 "16777217".toList] =
    [some 0x3DCCCCCD, some 0x3E99999A, some 0xBF800054, some 0x4B800000] := by decide +kernel

theorem test_parse_directives :
    parseLine ".reset ; again".toList = some .reset ∧
    parseLine ".raw 0x02000003, 0x0000BB80, 0x3F000000".toList =
      some (.raw [0x02000003, 0x0000BB80, 0x3F000000]) ∧
    parseLine "PROCESS 12000, []".toList = some (.command (.process 12000 [])) ∧
    parseLine "QUANTIZE [0x3F000000]".toList = some (.quantize [0x3F000000]) ∧
    parseLine "; only a comment".toList = some .blank ∧
    parseLine "CONFIG 2147483648".toList = none := by decide

-- R66: each `QUANTIZE` at the rate of the last `CONFIG` above it, blank lines apart; none without a `CONFIG`.
theorem test_assemble_quantize :
    assemble none [.command (.config 8000), .blank, .quantize [0x3F000000], .command .stop, .command (.config 1),
      .quantize []] =
      some [.packet [0x01000000, 0x00001F40], .packet [0x02000001, 0x00001F40, 0x3F000000], .packet [0x03000000],
        .packet [0x01000000, 0x00000001], .packet [0x02000000, 0x00000001]] ∧
    assemble none [.reset, .quantize [], .command (.config 8000)] = none := by decide

theorem test_output_listing :
    showBlk [0x4000, 0xC001] = "BLK 2 [16384, -16383]".toList ∧ showErr .cfgRates = "ERR CFG_RATES".toList := by
  decide

/-! ### Witnesses for the hypotheses of the statements -/

theorem witness_reset_inv : Inv State.reset := by constructor <;> decide

theorem witness_ready_inv (t : Word) (h : 1 ≤ t.toInt) : Inv (ready t) := by
  refine ⟨by simp [ready, State.reset], fun _ => ⟨t, rfl, h, ?_⟩, by simp [ready]⟩
  have := BitVec.toInt_lt (x := t)
  norm_num at this
  simp only [rateOf]
  omega

theorem witness_failed_inv (c : Cause) (h : c ≠ .none) : Inv (failed c) := by
  constructor <;> simp [failed, h]

theorem witness_DecodeOfEncode :
    (Instr.config 0x80000000).wellFormed = true ∧ (Instr.process 0xFFFFFFFF []).wellFormed = true ∧
    (Instr.process 48000 (List.replicate (2 ^ 24 - 1) 0xFFFFFFFF)).wellFormed = true ∧
    Instr.stop.wellFormed = true := by
  refine ⟨by decide, by decide, ?_, by decide⟩
  rw [Instr.wellFormed, Instr.wfError, if_pos]
  · rfl
  · rw [List.length_replicate]
    decide

theorem witness_EncodeOfDecode :
    decode [0x01000000, 0xFFFFFFFF] = .command (.config 0xFFFFFFFF) ∧
    decode [0x02000001, 0x80000000, 0xFF800000] = .command (.process 0x80000000 [0xFF800000]) ∧
    decode [0x03000000] = .command .stop := by decide

theorem witness_IllegalPacketsExactly :
    (onInput [.packet []] State.reset).cmd = .packet [] :: [] ∧ decode [] = .illegal .noWords ∧
    (onInput [.packet []] State.reset).state ≠ .error ∧ (onInput [.packet []] (ready 1)).state ≠ .error ∧
    (onInput [.packet [0x04000000]] (failed .illegal)).state = .error ∧
    decode [0x04000000] = .illegal .unassignedOpcode := by decide

theorem witness_StepRunsDecodedCommand :
    (onInput [.packet [0x03000000]] State.reset).cmd = .packet [0x03000000] :: [] ∧
    decode [0x03000000] = .command .stop ∧ decodeTableWord 32 0x03000000 = some .stop := by decide

theorem witness_HardwareResetActsAsStop :
    (onInput [.reset] (failed .protocol)).cmd = .reset :: [] := by decide

theorem witness_IdleWithoutEvents : (ready 8000).cmd = [] := by decide

theorem witness_ConfigByState :
    (State.reset.state = .unconf ∧ 1 ≤ (1 : Word).toInt ∧ 1 ≤ (0x7FFFFFFF : Word).toInt) ∧
    ((0 : Word).toInt ≤ 0 ∧ (0xFFFFFFFF : Word).toInt ≤ 0 ∧ (0x80000000 : Word).toInt ≤ 0) ∧
    (ready 8000).state = .ready ∧ (failed .cfgRates).state = .error := by decide

theorem witness_StopInEveryState : Inv State.reset ∧ State.reset.state = .unconf :=
  ⟨witness_reset_inv, rfl⟩

theorem witness_ProcessEmitsTransformedBlock :
    ((ready 8000).state = .ready ∧ (ready 8000).trate = some 8000 ∧ 1 ≤ (8000 : Word).toInt ∧
      (8000 : Word).toInt ≤ (48000 : Word).toInt) ∧
    ((ready 1).trate = some 1 ∧ 1 ≤ (1 : Word).toInt ∧ (1 : Word).toInt ≤ (1 : Word).toInt) ∧
    (1 ≤ 8000 ∧ 1 ≤ 1 ∧ 1 ≤ 6) := by decide

theorem witness_RateCheckExactly :
    (ready 8000).state = .ready ∧ (ready 8000).trate = some 8000 ∧ 1 ≤ (8000 : Word).toInt ∧
    (7999 : Word).toInt < (8000 : Word).toInt ∧ (8000 : Word).toInt ≤ (8000 : Word).toInt ∧
    (0 : Word).toInt ≤ 0 ∧ (0xFFFF4480 : Word).toInt ≤ 0 := by decide

theorem witness_ProcessChecksInOrder :
    (failed .illegal).state = .error ∧ State.reset.state = .unconf ∧ (ready 1).state = .ready ∧
    (ready 1).trate = some 1 ∧ 1 ≤ (1 : Word).toInt ∧ (0 : Word).toInt < (1 : Word).toInt ∧
    (1 : Word).toInt ≤ (1 : Word).toInt := by decide

theorem witness_EqualRatesQuantizeOnly :
    (ready 0x7FFFFFFF).state = .ready ∧ (ready 0x7FFFFFFF).trate = some 0x7FFFFFFF ∧
    1 ≤ (0x7FFFFFFF : Word).toInt := by decide

theorem witness_EmptyInputIsNoError :
    (ready 8000).state = .ready ∧ (ready 8000).trate = some 8000 ∧ 1 ≤ (8000 : Word).toInt ∧
    (8000 : Word).toInt ≤ (8000 : Word).toInt ∧ (7999 : Word).toInt < (8000 : Word).toInt := by decide

theorem witness_ZeroLengthOutput :
    (ready 8000).state = .ready ∧ (ready 8000).trate = some 8000 ∧ 1 ≤ (8000 : Word).toInt ∧
    (8000 : Word).toInt ≤ (48000 : Word).toInt ∧
    outLen 2 (48000 : Word).toInt.toNat (8000 : Word).toInt.toNat = 0 := by decide

theorem witness_UnselectedSamplesHaveNoEffect :
    (ramp.set 5 0x7FC00000).length = ramp.length ∧
    ∀ (t : Word) (i : Nat), (ready 8000).trate = some t →
      i < outLen ramp.length (48000 : Word).toInt.toNat t.toInt.toNat →
      ramp[srcIndex i ramp.length (48000 : Word).toInt.toNat t.toInt.toNat]? =
        (ramp.set 5 0x7FC00000)[srcIndex i ramp.length (48000 : Word).toInt.toNat t.toInt.toNat]? := by
  refine ⟨rfl, fun t i ht hi => ?_⟩
  obtain rfl : 8000 = t := Option.some.inj ht
  obtain rfl | rfl : i = 0 ∨ i = 1 := by
    have : i < 2 := hi
    omega
  all_goals rfl

theorem witness_ErrorEntryIsWholeEffect :
    step (onInput [.packet [0x02000000, 0x1F3F]] (ready 8000)) =
      .next { ready 8000 with state := .error, cause := .cfgRates, outp := [[0xE000, 0x0002]] } ∧
    (onInput [.packet [0x02000000, 0x1F3F]] (ready 8000)).state ≠ .error := ⟨rfl, by decide⟩

-- A state for each of the eight clauses, in their order; CONFIG and PROCESS with the operands on either side.
theorem witness_ErrorPriority :
    ((onInput [.packet [0x03000000]] (failed .illegal)).state = .error ∧ decode [0x03000000] = .command .stop) ∧
    ((onInput [.packet [0x03000001]] (failed .illegal)).state = .error ∧
      decode [0x03000001] ≠ .command .stop) ∧
    ((onInput [.packet []] (ready 1)).state ≠ .error ∧ decode [] = .illegal .noWords) ∧
    ((onInput [.packet [0x02000000, 0]] State.reset).state = .unconf ∧
      decode [0x02000000, 0] = .command (.process 0 [])) ∧
    ((onInput [.packet [0x01000000, 0]] (ready 1)).state = .ready ∧
      decode [0x01000000, 0] = .command (.config 0)) ∧
    ((onInput [.packet [0x01000000, 0]] State.reset).state = .unconf ∧ (0 : Word).toInt ≤ 0 ∧
      1 ≤ (1 : Word).toInt) ∧
    ((onInput [.packet [0x02000000, 0]] (ready 1)).state = .ready ∧
      (onInput [.packet [0x02000000, 0]] (ready 1)).trate = some 1 ∧ 1 ≤ (1 : Word).toInt ∧
      (0 : Word).toInt < (1 : Word).toInt ∧ (1 : Word).toInt ≤ (1 : Word).toInt) ∧
    ((onInput [.packet [0x03000000]] State.reset).state ≠ .error ∧
      (onInput [.packet [0x03000000]] (ready 1)).state ≠ .error ∧ decode [0x03000000] = .command .stop) := by
  decide

theorem witness_ErrorStateStaysSilent :
    (onInput [.packet [0x04000000], .packet [0x03000001]] (failed .cfgRates)).state = .error ∧
    ∀ e ∈ (onInput [.packet [0x04000000], .packet [0x03000001]] (failed .cfgRates)).cmd.take 2,
      ∃ p, e = .packet p ∧ decode p ≠ .command .stop := by
  refine ⟨rfl, fun e he => ?_⟩
  obtain rfl | rfl : e = .packet [0x04000000] ∨ e = .packet [0x03000001] := by simpa [onInput] using he
  · exact ⟨_, rfl, by decide⟩
  · exact ⟨_, rfl, by decide⟩

theorem witness_LeavingErrorState :
    step (onInput [.packet [0x03000000]] (failed .cfgRates)) = .next State.reset ∧
    step (onInput [.reset] (failed .cfgRates)) = .next State.reset ∧
    (failed .cfgRates).state = .error ∧ State.reset.state ≠ .error ∧
    step (failed .cfgRates) = .next (failed .cfgRates) := ⟨rfl, rfl, by decide, by decide, rfl⟩

theorem witness_LifecycleTable :
    Inv (onInput [.packet [0x02000000, 0x1F40]] (ready 8000)) ∧
    Inv (onInput [.packet [0x01000000, 1]] State.reset) ∧ Inv (onInput [.packet []] (failed .illegal)) := by
  obtain ⟨a1, a2, a3⟩ := witness_ready_inv 8000 (by decide)
  obtain ⟨b1, b2, b3⟩ := witness_reset_inv
  obtain ⟨c1, c2, c3⟩ := witness_failed_inv .illegal (by decide)
  exact ⟨⟨a1, a2, a3⟩, ⟨b1, b2, b3⟩, ⟨c1, c2, c3⟩⟩

theorem witness_RegistersChangeOnlyAsListed :
    step (onInput [.packet [0x01000000, 1]] State.reset) = .next (ready 1) ∧ State.reset.state ≠ .ready ∧
    (ready 1).state = .ready ∧ step (onInput [.reset] (ready 1)) = .next State.reset ∧
    (ready 1).state ≠ .unconf ∧ State.reset.state = .unconf ∧ step (ready 1) = .next (ready 1) := by
  refine ⟨rfl, by decide, rfl, rfl, by decide, rfl, rfl⟩

theorem witness_InvariantKeptByEveryStep :
    Inv (ready 1) ∧ step (onInput [.packet [0x01000000, 1]] State.reset) = .next (ready 1) ∧
    Inv (onInput [.packet [0x01000000, 1]] State.reset) :=
  ⟨witness_ready_inv 1 (by decide), rfl, witness_LifecycleTable.2.1⟩

theorem witness_InvariantsOfReachableStates :
    Reachable (ready 1) ∧ Reachable { failed .cfgTarget with outp := [[0xE000, 0x0001]] } :=
  ⟨⟨[.packet [0x01000000, 1]], 1, rfl⟩, ⟨[.packet [0x01000000, 0]], 1, rfl⟩⟩

theorem witness_OutputPortFormKept :
    PortOk State.reset ∧ step State.reset = .next State.reset ∧ PacketOk (blkPacket []) ∧
    PacketOk (errPacket .illegal) ∧
    PortOk (onInput [.packet [0x04000000]] { State.reset with outp := [blkPacket [0x4000]] }) := by
  refine ⟨by simp [PortOk, State.reset], rfl, .inl ⟨[], by decide, rfl⟩, .inr ⟨_, by decide, rfl⟩, ?_⟩
  intro p hp
  obtain rfl : p = blkPacket [0x4000] := by simpa [onInput] using hp
  exact .inl ⟨_, by decide, rfl⟩

theorem witness_OneEventOnePacketPerStep :
    step (onInput [.packet [], .reset] State.reset) =
      .next { onInput [.reset] (failed .illegal) with outp := [[0xE000, 0x0004]] } := rfl

theorem witness_BlkPacketWords :
    ([] : List OutWord).length < 2 ^ 24 ∧ (List.replicate (2 ^ 24 - 1) (0 : OutWord)).length < 2 ^ 24 := by
  rw [List.length_replicate]
  decide

theorem witness_OutputSamplePattern :
    (-32768 : ℤ) ≤ -32768 ∧ (-32768 : ℤ) ≤ 32767 ∧ (32767 : ℤ) ≤ 32767 := by decide

theorem witness_LengthIsRoundedQuotient : 1 ≤ 1 ∧ 1 ≤ 1 ∧ 8000 ≤ 48000 := by decide

theorem witness_SelectionIsClampedRound :
    1 ≤ 8000 ∧ 8000 ≤ 12000 ∧ 1 ≤ 10 ∧ 6 < outLen 10 12000 8000 ∧ 0 < outLen 1 1 1 := by decide

theorem witness_LawsOfLength : 1 ≤ 8000 ∧ 8000 ≤ 48000 ∧ 2 ≤ 3 ∧ 1 ≤ 2 ∧ 48000 = 6 * 8000 := by decide

theorem witness_LawsOfSelection :
    (1 ≤ 8000 ∧ 8000 ≤ 48000 ∧ 1 ≤ 12 ∧ 1 < outLen 12 48000 8000 ∧ 48000 = 6 * 8000) ∧
    (8000 ≤ 8000 ∧ 4 < outLen 5 8000 8000) ∧ 2 * 3 * 12000 = (2 * 4 + 1) * 8000 := by decide

theorem witness_SelectionStaysInBlock :
    1 ≤ 2 ∧ 2 ≤ 3 ∧ 4 < outLen 7 3 2 ∧ 16777214 < outLen 16777215 2147483647 2147483647 := by decide

theorem witness_ResamplerWidths :
    16777215 ≤ 2 ^ 24 - 1 ∧ 1 ≤ 2147483647 ∧ 2147483647 ≤ 2147483647 ∧ 2147483647 ≤ 2 ^ 31 - 1 ∧
    16777214 < outLen 16777215 2147483647 2147483647 := by decide

theorem witness_SeamlessSplit : 1 ≤ 8000 ∧ 8000 ≤ 48000 ∧ ramp.length * 8000 = 2 * 48000 := by decide

theorem witness_RoundAndClampAsDefined : (-32768 : ℤ) ≤ 32767 ∧ (0 : ℤ) ≤ 0 := by decide

-- One pattern for each class of R56, by its fields.
theorem witness_SampleValueIsBinary32 :
    ((0x80000000 : Word).toNat / 2 ^ 23 % 256 = 0 ∧ (0x80000000 : Word).toNat % 2 ^ 23 = 0) ∧
    ((0x007FFFFF : Word).toNat / 2 ^ 23 % 256 = 0 ∧ (0x007FFFFF : Word).toNat % 2 ^ 23 ≠ 0) ∧
    (1 ≤ (0x00800000 : Word).toNat / 2 ^ 23 % 256 ∧ (0x7F7FFFFF : Word).toNat / 2 ^ 23 % 256 ≤ 254) ∧
    ((0xFF800000 : Word).toNat / 2 ^ 23 % 256 = 255 ∧ (0xFF800000 : Word).toNat % 2 ^ 23 = 0) ∧
    ((0x7F800001 : Word).toNat / 2 ^ 23 % 256 = 255 ∧ (0x7F800001 : Word).toNat % 2 ^ 23 ≠ 0) := by decide

theorem witness_QuantizerMonotone :
    sampleValue 0xBF000000 = .number (.fin (-1 / 2)) ∧ sampleValue 0x7F800000 = .number .posInf ∧
    (Extended.fin (-1 / 2)).le .posInf ∧ sampleValue 0x3F000000 = .number (.fin (1 / 2)) ∧
    (Extended.fin (-1 / 2)).le (.fin (1 / 2)) := by
  refine ⟨by decide +kernel, by decide +kernel, trivial, by decide +kernel, ?_⟩
  norm_num [Extended.le]

theorem witness_LargeMagnitudesClip :
    sampleValue 0x3F7FFF00 = .number (.fin (65535 / 65536)) ∧ (32766 + 1 / 2 : ℚ) ≤ 65535 / 65536 * 32767 ∧
    sampleValue 0xC0000000 = .number (.fin (-2)) ∧ (-2 * 32767 : ℚ) < -32767 - 1 / 2 := by
  refine ⟨by decide +kernel, by norm_num, by decide +kernel, by norm_num⟩

theorem witness_NanGivesZero :
    (0xFFFFFFFF : Word).toNat / 2 ^ 23 % 256 = 255 ∧ (0xFFFFFFFF : Word).toNat % 2 ^ 23 ≠ 0 := by decide

theorem witness_SmallMagnitudesGiveZero :
    (0x807FFFFF : Word).toNat / 2 ^ 23 % 256 = 0 ∧ sampleValue 0x80000000 = .number (.fin 0) ∧
    ((0x37800101 : Word).toNat < 2 ^ 31 ∧ qnt 0x37800101 = 1) ∧
    (2 ^ 31 ≤ (0xB7800101 : Word).toNat ∧ qnt 0xB7800101 = -1) := by decide +kernel

theorem witness_ClipThresholdPatterns :
    (0x7F800000 : Word).toNat ≤ 0x7F800000 ∧ 0x80000000 ≤ (0x80000000 : Word).toNat ∧
    (0xFF800000 : Word).toNat ≤ 0xFF800000 := by decide

theorem witness_RoundingConventionMattersOnce : sampleValue 0xBFC00000 = .number (.fin (-3 / 2)) := by
  decide +kernel

theorem witness_QuantizerOddSymmetry :
    sampleValue 0xBF000000 = .number (.fin (-1 / 2)) ∧ |(-1 / 2 : ℚ) * 32767| < 32767 + 1 / 2 ∧
    sampleValue 0x3F800000 = .number (.fin 1) ∧ |(1 : ℚ) * 32767| < 32767 + 1 / 2 := by
  refine ⟨by decide +kernel, by norm_num [abs_lt], by decide +kernel, by norm_num [abs_lt]⟩

theorem witness_SessionEmitsBlocksInOrder :
    1 ≤ (8000 : Word).toInt ∧
    (∀ b ∈ [((12000 : Word), ramp), (48000, []), (8000, ramp)],
      (8000 : Word).toInt ≤ b.1.toInt ∧ b.2.length < 2 ^ 24) ∧
    (start (.reset :: .packet [0x01000000, 8000] ::
      [((12000 : Word), ramp), (48000, []), (8000, ramp)].map
        fun b => .packet (encode (.process b.1 b.2)))).cmd =
      .reset :: .packet [0x01000000, 8000] ::
        [((12000 : Word), ramp), (48000, []), (8000, ramp)].map fun b => .packet (encode (.process b.1 b.2)) :=
  ⟨by decide, by decide, rfl⟩

theorem witness_RunsIgnoreEarlierOutput :
    run 2 (start [.packet [0x01000000, 1], .packet [0x03000000]]) = .next State.reset := rfl

theorem witness_WentWrongIffErrorEntered :
    (start [.packet []]).outp = [] ∧ (start [.packet []]).state ≠ .error ∧
    run 1 (start [.packet []]) = .next { failed .illegal with outp := [[0xE000, 0x0004]] } :=
  ⟨rfl, by decide, rfl⟩

theorem witness_QuantizeExpandsToProcess :
    Claims.noConfig [.blank, .reset, .command .stop, .command (.process 1 []), .raw [0x01000000, 1], .quantize []] ∧
    ([] : List Word).length ≤ 2 ^ 24 - 1 ∧ (List.replicate (2 ^ 24 - 1) (0 : Word)).length ≤ 2 ^ 24 - 1 := by
  refine ⟨by simp [Claims.noConfig], by decide, ?_⟩
  rw [List.length_replicate]

theorem witness_LinesAssembleToTheirCommands :
    (Instr.process 1 []).wellFormed = true ∧ (Instr.config 1).wellFormed = true := by decide

end Sys2Proof.Tests
end

section
/-! PROOFS. `round` and `clamp` of spec/00_scope.md, R6 and R7: each by the cases of its definition. -/

namespace Sys2Proof.Machine

/-- The core floor of a rational that `round` computes with is Mathlib's (R6). -/
theorem roundHalfUp_eq_floor (x : ℚ) : roundHalfUp x = ⌊x + 1 / 2⌋ := rfl

/-- A number of halves is rounded by one integer division, so an odd one goes to the larger integer,
for either sign (R6). -/
theorem roundHalfUp_div_two (a : ℤ) : roundHalfUp ((a : ℚ) / 2) = (a + 1) / 2 := by
  have h := roundHalfUp_div a 2 two_pos
  push_cast at h
  omega

@[simp] theorem Extended.round_posInf : Extended.posInf.round = .posInf := rfl
@[simp] theorem Extended.round_negInf : Extended.negInf.round = .negInf := rfl
@[simp] theorem Extended.clamp_posInf (lo hi : ℤ) : Extended.posInf.clamp lo hi = hi := rfl
@[simp] theorem Extended.clamp_negInf (lo hi : ℤ) : Extended.negInf.clamp lo hi = lo := rfl

theorem clamp_of_lt (x lo hi : ℤ) (h : x < lo) : clamp x lo hi = lo := if_pos h

theorem clamp_of_gt (x lo hi : ℤ) (h : lo ≤ hi) (hx : hi < x) : clamp x lo hi = hi := by
  rw [clamp, if_neg (by omega), if_pos hx]

/-- The three cases of R7 in one formula: below the bounds, above them, between them. -/
theorem clamp_eq_max_min (x lo hi : ℤ) (h : lo ≤ hi) : clamp x lo hi = max lo (min x hi) := by
  rcases lt_or_ge x lo with hlo | hlo
  · rw [clamp_of_lt x lo hi hlo]
    omega
  · rcases lt_or_ge hi x with hhi | hhi
    · rw [clamp_of_gt x lo hi h hhi]
      omega
    · rw [clamp_of_mem x lo hi hlo hhi]
      omega

/-- Settles O43: `round` is Mathlib's floor, its examples are numbers of halves, and `clamp` goes by the
cases of R7. -/
theorem roundAndClampAsDefined : Obligations.RoundAndClampAsDefined := by
  refine ⟨roundHalfUp_eq_floor, ?pos, ?neg, ?half, ?negHalf,
    Extended.round_posInf, Extended.round_negInf, ?clamp⟩
  case pos => simpa using roundHalfUp_div_two 32767
  case neg => simpa using roundHalfUp_div_two (-32767)
  case half => simpa using roundHalfUp_div_two 1
  case negHalf => simpa using roundHalfUp_div_two (-1)
  case clamp =>
    intro x lo hi h
    exact ⟨clamp_eq_max_min x lo hi h, Extended.clamp_posInf lo hi, Extended.clamp_negInf lo hi⟩

end Sys2Proof.Machine
end

section
/-! PROOFS. The state registers (spec/10_state.md): the four things one step can do to them, what each of them
does to the invariant, and the statements on R14 to R16, R22 and R23 that follow. -/

namespace Sys2Proof.Machine

/-! ### The four effects on the registers -/

/-- The three state registers hold in `s'` what they held in `s`; the two ports may differ. -/
structure RegistersKept (s s' : State) : Prop where
  trate : s'.trate = s.trate
  state : s'.state = s.state
  cause : s'.cause = s.cause

theorem registersKept_emitBlock (out : List OutWord) (s : State) : RegistersKept s (emitBlock out s) :=
  ⟨emitBlock_trate out s, emitBlock_state out s, emitBlock_cause out s⟩

@[simp] theorem exec_stop (s : State) : exec .stop s = .next (discardSession s) := rfl

/-- What a command does to the registers, error entry by any command taken as one case. -/
theorem exec_effect_cases {i : Instr} {s s' : State} (h : exec i s = .next s') :
    RegistersKept s s' ∨
    (i = .stop ∧ s' = discardSession s) ∨
    (s.state = .unconf ∧ ∃ t, i = .config t ∧ 1 ≤ rateOf t ∧ s' = openSession t s) ∨
    (s.state ≠ .error ∧ ∃ c, c ≠ .none ∧ s' = raiseError c s) := by
  obtain ⟨_, _, rfl⟩ | stop | ⟨hs, t, hi, ⟨_, rfl⟩ | ⟨ht, hopen⟩⟩ | ⟨hs, _, _, rfl⟩ |
    ⟨hs, _, _, _, rfl⟩ | ⟨hs, r, x, t, _, _, _, ⟨_, rfl⟩ | ⟨_, rfl⟩⟩ := exec_next_cases i s s' h
  · exact .inl ⟨rfl, rfl, rfl⟩
  · exact .inr (.inl stop)
  · exact .inr (.inr (.inr ⟨by simp [hs], .cfgTarget, by decide, rfl⟩))
  · exact .inr (.inr (.inl ⟨hs, t, hi, ht, hopen⟩))
  · exact .inr (.inr (.inr ⟨by simp [hs], .protocol, by decide, rfl⟩))
  · exact .inr (.inr (.inr ⟨by simp [hs], .protocol, by decide, rfl⟩))
  · exact .inr (.inr (.inr ⟨by simp [hs], .cfgRates, by decide, rfl⟩))
  · exact .inl (registersKept_emitBlock _ s)

/-- What a step does to the registers (R15): it keeps them; a reset or a `STOP` discards the session; a
`CONFIG` in `UNCONF` opens one; or RQ, not yet in `ERROR`, enters it with a cause. -/
theorem step_effect_cases {s s' : State} (h : step s = .next s') :
    RegistersKept s s' ∨
    (∃ rest, (s.cmd = .reset :: rest ∨ ∃ p, s.cmd = .packet p :: rest ∧ decode p = .command .stop) ∧
      s' = discardSession { s with cmd := rest }) ∨
    (s.state = .unconf ∧ ∃ rest p t, s.cmd = .packet p :: rest ∧ decode p = .command (.config t) ∧
      1 ≤ rateOf t ∧ s' = openSession t { s with cmd := rest }) ∨
    (s.state ≠ .error ∧ ∃ rest c, c ≠ .none ∧ s' = raiseError c { s with cmd := rest }) := by
  obtain ⟨_, hstep⟩ | ⟨rest, hcmd, hstep⟩ | ⟨p, rest, i, hcmd, hdec, hstep⟩ | ⟨p, rest, why, _, _, hstep⟩ :=
    step_eq_of_event s
  · obtain rfl := Host.Outcome.next.inj (hstep ▸ h)
    exact .inl ⟨rfl, rfl, rfl⟩
  · obtain rfl := Host.Outcome.next.inj (hstep ▸ h)
    exact .inr (.inl ⟨rest, .inl hcmd, rfl⟩)
  · obtain kept | ⟨rfl, rfl⟩ | ⟨hs, t, rfl, ht, rfl⟩ | ⟨hs, c, hc, rfl⟩ := exec_effect_cases (hstep ▸ h)
    · exact .inl ⟨kept.trate, kept.state, kept.cause⟩
    · exact .inr (.inl ⟨rest, .inr ⟨p, hcmd, hdec⟩, rfl⟩)
    · exact .inr (.inr (.inl ⟨hs, rest, p, t, hcmd, hdec, ht, rfl⟩))
    · exact .inr (.inr (.inr ⟨hs, rest, c, hc, rfl⟩))
  · obtain rfl := Host.Outcome.next.inj (hstep ▸ h)
    obtain ⟨_, hdrop⟩ | ⟨hs, hraise⟩ := illegalPacket_cases { s with cmd := rest }
    · rw [hdrop]
      exact .inl ⟨rfl, rfl, rfl⟩
    · exact .inr (.inr (.inr ⟨hs, rest, .illegal, by decide, hraise⟩))

/-! ### The invariant (R23) under each effect -/

/-- The upper bound of a legal rate (R14) is the largest number that a rate operand spells (R52). -/
theorem rateOf_le (t : Word) : rateOf t ≤ 2 ^ 31 - 1 :=
  Int.le_sub_one_of_lt (BitVec.toInt_lt (x := t))

/-- The invariant speaks of the registers alone. -/
theorem Inv.of_registersKept {s s' : State} (hs : Inv s) (kept : RegistersKept s s') : Inv s' := by
  obtain ⟨htrate, hstate, hcause⟩ := kept
  constructor
  · rw [hstate, hcause]
    exact hs.errorIffCause
  · rw [hstate, htrate]
    exact hs.readyTrate
  · rw [hstate, htrate]
    exact hs.unconfTrate

theorem inv_discardSession (s : State) : Inv (discardSession s) := by
  constructor <;> simp

theorem inv_raiseError {c : Cause} (hc : c ≠ .none) (s : State) : Inv (raiseError c s) := by
  constructor <;> simp [hc]

/-- A session opened outside `ERROR` has no cause to clear: the invariant says that there is none. -/
theorem inv_openSession {s : State} (hs : Inv s) (herr : s.state ≠ .error) {t : Word} (ht : 1 ≤ rateOf t) :
    Inv (openSession t s) := by
  have hcause : s.cause = .none := not_not.1 (mt hs.errorIffCause.2 herr)
  refine ⟨by simp [hcause], fun _ => ⟨t, rfl, ht, rateOf_le t⟩, by simp⟩

/-- Settles O26, by the four effects of a step on the registers. -/
theorem invariantKeptByEveryStep : Obligations.InvariantKeptByEveryStep := by
  intro s s' hs h
  obtain kept | ⟨rest, _, rfl⟩ | ⟨hu, rest, _, t, _, _, ht, rfl⟩ | ⟨_, rest, c, hc, rfl⟩ := step_effect_cases h
  · exact hs.of_registersKept kept
  · exact inv_discardSession _
  · have hrest : Inv { s with cmd := rest } := hs.of_registersKept ⟨rfl, rfl, rfl⟩
    exact inv_openSession hrest (by simp [hu]) ht
  · exact inv_raiseError hc _

/-! ### The changes of the registers (R14 to R16) -/

/-- `READY` is entered by a successful `CONFIG` in `UNCONF` only (R15, R70). -/
theorem step_enters_ready {s s' : State} (h : step s = .next s') (hs : s.state ≠ .ready)
    (hs' : s'.state = .ready) :
    s.state = .unconf ∧ ∃ rest p t, s.cmd = .packet p :: rest ∧ decode p = .command (.config t) ∧
      1 ≤ rateOf t ∧ s' = openSession t { s with cmd := rest } := by
  obtain kept | ⟨_, _, rfl⟩ | opened | ⟨_, _, _, _, rfl⟩ := step_effect_cases h
  · exact absurd (kept.state.symm.trans hs') hs
  · cases hs'
  · exact opened
  · cases hs'

/-- `UNCONF` is entered by a reset or a `STOP` only (R15). -/
theorem step_enters_unconf {s s' : State} (h : step s = .next s') (hs : s.state ≠ .unconf)
    (hs' : s'.state = .unconf) :
    ∃ rest, (s.cmd = .reset :: rest ∨ ∃ p, s.cmd = .packet p :: rest ∧ decode p = .command .stop) ∧
      s' = discardSession { s with cmd := rest } := by
  obtain kept | discarded | ⟨_, _, _, _, _, _, _, rfl⟩ | ⟨_, _, _, _, rfl⟩ := step_effect_cases h
  · exact absurd (kept.state.symm.trans hs') hs
  · exact discarded
  · cases hs'
  · cases hs'

/-- Within `READY` and within `ERROR` no register is written: each other effect of a step changes `STATE`, or
leaves it at `UNCONF`. -/
theorem registersKept_of_state_eq {s s' : State} (h : step s = .next s') (heq : s'.state = s.state)
    (hs : s.state ≠ .unconf) : RegistersKept s s' := by
  obtain kept | ⟨_, _, rfl⟩ | ⟨hu, _⟩ | ⟨hne, _, _, _, rfl⟩ := step_effect_cases h
  · exact kept
  · exact absurd heq.symm hs
  · exact absurd hu hs
  · exact absurd heq.symm hne

/-- Settles O25: one lemma for each way that `STATE` can go. -/
theorem registersChangeOnlyAsListed : Obligations.RegistersChangeOnlyAsListed := by
  intro s s' h
  refine ⟨fun hs hs' => ?ready, fun hs hs' => ?unconf, fun heq hs => ?kept⟩
  case ready =>
    obtain ⟨hu, rest, p, t, hcmd, hdec, ht, rfl⟩ := step_enters_ready h hs hs'
    exact ⟨hu, rfl, rfl, rest, p, t, hcmd, hdec, ht, rfl⟩
  case unconf =>
    obtain ⟨rest, hcmd, rfl⟩ := step_enters_unconf h hs hs'
    exact ⟨rfl, rfl, rfl, rest, hcmd⟩
  case kept =>
    have kept := registersKept_of_state_eq h heq hs
    exact ⟨kept.trate, kept.cause⟩

/-! ### Reset, and the states that runs reach (R22, R23) -/

/-- Settles O27: with the register values of reset each clause is a fact about constants. -/
theorem invariantAtReset : Obligations.InvariantAtReset := by
  refine ⟨?errorIffCause, ?readyTrate, fun _ => rfl⟩
  case errorIffCause => decide
  case readyTrate => exact fun hready => nomatch hready

/-- A run starts at reset and each step keeps the invariant, so every state it shows has it. -/
theorem Reachable.inv {s : State} (hs : Reachable s) : Inv s := by
  obtain ⟨events, k, hrun⟩ := hs
  have hstart : Inv (start events) := invariantAtReset.of_registersKept ⟨rfl, rfl, rfl⟩
  exact run_induction invariantKeptByEveryStep k hstart hrun

/-- The code 0 of `CAUSE` stands for `NONE` alone (R111). -/
@[simp] theorem Cause.code_eq_zero_iff (c : Cause) : c.code = 0 ↔ c = .none := by
  cases c <;> decide

/-- Settles O28: the invariant of reachable states, with `CAUSE` read as its code. -/
theorem invariantsOfReachableStates : Obligations.InvariantsOfReachableStates := by
  intro s hs
  have hinv := hs.inv
  refine ⟨?values, ?errorIffCode, hinv.readyTrate⟩
  case values => cases s.state <;> simp
  case errorIffCode =>
    rw [ne_eq, Cause.code_eq_zero_iff]
    exact hinv.errorIffCause

/-- Settles O8: the reset state by its definition, `STOP` by what discarding a session leaves. -/
theorem resetAndStopValues : Obligations.ResetAndStopValues := by
  refine ⟨⟨rfl, rfl, rfl, rfl⟩, fun s => ⟨discardSession s, exec_stop s, ?_⟩⟩
  exact ⟨rfl, rfl, discardSession_trate s, discardSession_outp s, discardSession_cmd s⟩

end Sys2Proof.Machine
end

section
/-! PROOFS. Packets in, packets out, and the two block spaces inside a `PROCESS` (spec/20_memory.md): which
command a step runs, what it does to the two ports, that it has an outcome, and that neither the index into the
input block nor the 16-bit output cell loses anything. -/

namespace Sys2Proof.Machine

/-! ### The command that a step runs (R35, R36) -/

theorem fetch_of_command {s : State} {p : List Word} {rest : List Event} {i : Instr}
    (hcmd : s.cmd = .packet p :: rest) (hdec : decode p = .command i) :
    fetch s = .command i { s with cmd := rest } := by
  simp only [fetch, hcmd, hdec]

theorem step_of_command {s : State} {p : List Word} {rest : List Event} {i : Instr}
    (hcmd : s.cmd = .packet p :: rest) (hdec : decode p = .command i) :
    step s = exec i { s with cmd := rest } := by
  simp only [step, fetch_of_command hcmd hdec]

theorem decodeTableWord_eq_some (nbits w : Nat) (i : Instr) :
    decodeTableWord nbits w = some i ↔ decode (tableWords nbits w) = .command i := by
  unfold decodeTableWord
  split
  · next j hj => simp [hj]
  · next why hwhy => simp [hwhy]

/-- Settles O7: taking the packet that `withFetchWord` put in front gives back the state before it. -/
theorem stepRunsDecodedCommand : Obligations.StepRunsDecodedCommand := by
  refine ⟨fun s p rest i => step_of_command, fun s nbits w i htable => ?_⟩
  have hdec := (decodeTableWord_eq_some nbits w i).1 htable
  exact step_of_command (withFetchWord_cmd s nbits w) hdec

/-! ### The two ports (R35, R36, R42) -/

/-- What finishing an event that is already taken may do to the two ports: it takes no other one, and hands out
at most one packet, behind those handed out before. -/
structure EmitsAtMostOne (s s' : State) : Prop where
  cmd : s'.cmd = s.cmd
  outp : s'.outp = s.outp ∨ ∃ p, s'.outp = s.outp ++ [p]

theorem emitsAtMostOne_refl (s : State) : EmitsAtMostOne s s := ⟨rfl, .inl rfl⟩

theorem emitsAtMostOne_discardSession (s : State) : EmitsAtMostOne s (discardSession s) := ⟨rfl, .inl rfl⟩

theorem emitsAtMostOne_openSession (t : Word) (s : State) : EmitsAtMostOne s (openSession t s) :=
  ⟨rfl, .inl rfl⟩

theorem emitsAtMostOne_raiseError (c : Cause) (s : State) : EmitsAtMostOne s (raiseError c s) :=
  ⟨rfl, .inr ⟨errPacket c, rfl⟩⟩

theorem emitsAtMostOne_emitBlock (out : List OutWord) (s : State) : EmitsAtMostOne s (emitBlock out s) := by
  obtain ⟨_, hemit⟩ | ⟨_, _, hkeep⟩ := emitBlock_cases out s
  · rw [hemit]
    exact ⟨rfl, .inr ⟨blkPacket out, rfl⟩⟩
  · rw [hkeep]
    exact emitsAtMostOne_refl s

theorem emitsAtMostOne_illegalPacket (s : State) : EmitsAtMostOne s (illegalPacket s) := by
  obtain ⟨_, hdrop⟩ | ⟨_, hraise⟩ := illegalPacket_cases s
  · rw [hdrop]
    exact emitsAtMostOne_refl s
  · rw [hraise]
    exact emitsAtMostOne_raiseError .illegal s

theorem emitsAtMostOne_exec {i : Instr} {s s' : State} (h : exec i s = .next s') : EmitsAtMostOne s s' := by
  obtain ⟨_, _, rfl⟩ | ⟨_, rfl⟩ | ⟨_, t, _, ⟨_, rfl⟩ | ⟨_, rfl⟩⟩ | ⟨_, _, _, rfl⟩ |
    ⟨_, _, _, _, rfl⟩ | ⟨_, _, _, _, _, _, _, ⟨_, rfl⟩ | ⟨_, rfl⟩⟩ := exec_next_cases i s s' h
  · exact emitsAtMostOne_refl s'
  · exact emitsAtMostOne_discardSession s
  · exact emitsAtMostOne_raiseError .cfgTarget s
  · exact emitsAtMostOne_openSession t s
  · exact emitsAtMostOne_raiseError .protocol s
  · exact emitsAtMostOne_raiseError .protocol s
  · exact emitsAtMostOne_raiseError .cfgRates s
  · exact emitsAtMostOne_emitBlock _ s

/-- A step first takes the next event, if there is one, and then does no more to the ports than finishing it. -/
theorem emitsAtMostOne_step {s s' : State} (h : step s = .next s') :
    EmitsAtMostOne { s with cmd := s.cmd.tail } s' := by
  obtain ⟨hcmd, hstep⟩ | ⟨rest, hcmd, hstep⟩ | ⟨p, rest, i, hcmd, _, hstep⟩ | ⟨p, rest, why, hcmd, _, hstep⟩ :=
    step_eq_of_event s
  · obtain rfl := Host.Outcome.next.inj (hstep ▸ h)
    exact ⟨by simp [hcmd], .inl rfl⟩
  · obtain rfl := Host.Outcome.next.inj (hstep ▸ h)
    rw [hcmd]
    exact emitsAtMostOne_discardSession _
  · rw [hcmd]
    exact emitsAtMostOne_exec (hstep ▸ h)
  · obtain rfl := Host.Outcome.next.inj (hstep ▸ h)
    rw [hcmd]
    exact emitsAtMostOne_illegalPacket _

/-- Settles O31, by what a step does to the two ports. -/
theorem oneEventOnePacketPerStep : Obligations.OneEventOnePacketPerStep := fun _ _ h =>
  ⟨(emitsAtMostOne_step h).cmd, (emitsAtMostOne_step h).outp⟩

/-! ### Every step has an outcome (R47) -/

theorem execConfig_answers (t : Word) (s : State) : ∃ s', execConfig t s = .next s' := by
  unfold execConfig
  split
  · exact ⟨_, rfl⟩
  · exact ⟨_, rfl⟩
  · split
    · exact ⟨_, rfl⟩
    · exact ⟨_, rfl⟩

/-- `PROCESS` stops only in `READY` without a legal `TRATE`, which the invariant excludes (R23 (c)). -/
theorem execProcess_answers {s : State} (hs : Inv s) (r : Word) (x : List Word) :
    ∃ s', execProcess r x s = .next s' := by
  unfold execProcess
  split
  · exact ⟨_, rfl⟩
  · exact ⟨_, rfl⟩
  · next hready =>
    obtain ⟨t, htrate, hpos, _⟩ := hs.readyTrate hready
    have hread : targetRate s = some (rateOf t) := (targetRate_eq_some s _).2 ⟨t, htrate, hpos, rfl⟩
    rw [hread]
    dsimp only
    split
    · exact ⟨_, rfl⟩
    · exact ⟨_, rfl⟩

theorem exec_answers {s : State} (hs : Inv s) (i : Instr) : ∃ s', exec i s = .next s' := by
  cases i with
  | config t => exact execConfig_answers t s
  | process r x => exact execProcess_answers hs r x
  | stop => exact ⟨_, exec_stop s⟩

theorem step_answers {s : State} (hs : Inv s) : ∃ s', step s = .next s' := by
  obtain ⟨_, hstep⟩ | ⟨_, _, hstep⟩ | ⟨p, rest, i, _, _, hstep⟩ | ⟨_, _, _, _, _, hstep⟩ := step_eq_of_event s
  · exact ⟨_, hstep⟩
  · exact ⟨_, hstep⟩
  · have hrest : Inv { s with cmd := rest } := hs.of_registersKept ⟨rfl, rfl, rfl⟩
    rw [hstep]
    exact exec_answers hrest i
  · exact ⟨_, hstep⟩

/-- Each step of a run has an outcome and keeps the invariant, so the next one has an outcome too. -/
theorem run_answers (k : Nat) {s : State} (hs : Inv s) : ∃ s', run k s = .next s' := by
  induction k generalizing s with
  | zero => exact ⟨s, run_zero s⟩
  | succ k ih =>
    obtain ⟨u, hu⟩ := step_answers hs
    rw [run_succ_of_next hu]
    exact ih (invariantKeptByEveryStep s u hs hu)

/-- Settles O29: the start of a run is reachable, so it meets the invariant. -/
theorem everyPacketHasAnOutcome : Obligations.EveryPacketHasAnOutcome :=
  ⟨fun _ => step_answers, fun events k => run_answers k (Reachable.inv ⟨events, 0, run_zero _⟩)⟩

/-! ### The output cell (R31, R106) -/

/-- A clamped value lies within the bounds, an infinity on the bound of its side (R7). -/
theorem Extended.clamp_mem (x : Extended Int) (lo hi : Int) (h : lo ≤ hi) :
    lo ≤ x.clamp lo hi ∧ x.clamp lo hi ≤ hi := by
  cases x with
  | negInf => exact ⟨le_rfl, h⟩
  | fin n => exact Machine.clamp_mem n lo hi h
  | posInf => exact ⟨h, le_rfl⟩

/-- The quantizer's integer lies in the range of an output sample (R31, R90). -/
theorem qnt_mem (w : Word) : -32768 ≤ qnt w ∧ qnt w ≤ 32767 := by
  unfold qnt
  split
  · decide
  · exact Extended.clamp_mem _ _ _ (by decide)

/-- Sixteen bits hold every integer of that range (R60). -/
theorem toInt_toI16 {q : Int} (hlo : -32768 ≤ q) (hhi : q ≤ 32767) : (toI16 q).toInt = q := by
  rw [toI16, BitVec.toInt_ofInt]
  exact Int.bmod_eq_of_le (by omega) (by omega)

/-- Settles O35: the quantizer's range is the range that 16 bits hold. -/
theorem narrowingKeepsTheSample : Obligations.NarrowingKeepsTheSample := by
  intro w
  obtain ⟨hlo, hhi⟩ := qnt_mem w
  exact ⟨toInt_toI16 hlo hhi, hlo, hhi⟩

/-! ### The input cell (R47, R84) -/

/-- A block of no samples has an output of no samples: half the divisor rounds down (R81). -/
@[simp] theorem outLen_zero (r t : Nat) : outLen 0 r t = 0 := by
  rw [outLen, Nat.div_eq_zero_iff]
  omega

theorem srcIndex_le (i n r t : Nat) : srcIndex i n r t ≤ n - 1 := min_le_right _ _

/-- Settles O40: an output cell needs an input sample, and `SEL` ends in a minimum with the last index. -/
theorem selectionStaysInBlock : Obligations.SelectionStaysInBlock := by
  intro n r t i _ _ hi
  have hn : n ≠ 0 := by
    rintro rfl
    simp at hi
  exact ⟨Nat.one_le_iff_ne_zero.2 hn, Nat.zero_le _, srcIndex_le i n r t⟩

end Sys2Proof.Machine
end

section
/-! PROOFS. Command packets (spec/30_encoding.md, R50 to R55, R61, R62, R65): what each arm of the decoder
answers, that `decode` and `encode` invert one another on the well-formed commands, and which packets are none. -/

namespace Sys2Proof

/-! ### The header fields, compared by their numbers (R51) -/

theorem headerOp_eq_iff (h : Word) (op : BitVec 8) : headerOp h = op ↔ h.toNat / 2 ^ 24 = op.toNat := by
  rw [← BitVec.toNat_inj, headerOp_toNat]

theorem headerLen_eq_iff (h : Word) (len : BitVec 24) : headerLen h = len ↔ h.toNat % 2 ^ 24 = len.toNat := by
  rw [← BitVec.toNat_inj, headerLen_toNat]

/-- A header word has no bits beside its two fields. -/
theorem header_headerOp_headerLen (h : Word) : header (headerOp h) (headerLen h) = h := by
  apply BitVec.eq_of_toNat_eq
  rw [header_toNat, headerOp_toNat, headerLen_toNat]
  omega

/-! ### Well-formed commands (R140) -/

@[simp] theorem wellFormed_config (t : Word) : (Instr.config t).wellFormed = true := rfl

@[simp] theorem wellFormed_stop : Instr.stop.wellFormed = true := rfl

theorem wellFormed_process_iff (r : Word) (x : List Word) :
    (Instr.process r x).wellFormed = true ↔ x.length < 2 ^ 24 := by
  rw [Instr.wellFormed, Instr.wfError]
  split
  · next hx => exact iff_of_true rfl hx
  · next hx => exact iff_of_false Bool.false_ne_true hx

/-! ### The decoder, arm by arm (R61) -/

theorem decodeConfig_eq_command_iff (len : BitVec 24) (operands : List Word) (i : Instr) :
    decodeConfig len operands = .command i ↔ len = 0 ∧ ∃ t, operands = [t] ∧ i = .config t := by
  constructor
  · intro h
    unfold decodeConfig at h
    split at h
    · next hlen =>
      split at h
      · next t => exact ⟨hlen, t, rfl, (Decoded.command.inj h).symm⟩
      · cases h
    · cases h
  · rintro ⟨rfl, t, rfl, rfl⟩
    rfl

theorem decodeProcess_eq_command_iff (len : BitVec 24) (operands : List Word) (i : Instr) :
    decodeProcess len operands = .command i ↔
      ∃ r x, operands = r :: x ∧ x.length = len.toNat ∧ i = .process r x := by
  constructor
  · intro h
    unfold decodeProcess at h
    split at h
    · next r x =>
      split at h
      · next hx => exact ⟨r, x, rfl, hx, (Decoded.command.inj h).symm⟩
      · cases h
    · cases h
  · rintro ⟨r, x, rfl, hx, rfl⟩
    exact if_pos hx

theorem decodeStop_eq_command_iff (len : BitVec 24) (operands : List Word) (i : Instr) :
    decodeStop len operands = .command i ↔ len = 0 ∧ operands = [] ∧ i = .stop := by
  constructor
  · intro h
    unfold decodeStop at h
    split at h
    · next hlen =>
      split at h
      · exact ⟨hlen, rfl, (Decoded.command.inj h).symm⟩
      · cases h
    · cases h
  · rintro ⟨rfl, rfl, rfl⟩
    rfl

/-- The arm that a header chooses, and that no other header gives a command. -/
theorem decode_cons_eq_command_iff (h : Word) (operands : List Word) (i : Instr) :
    decode (h :: operands) = .command i ↔
      (headerOp h = 0x01 ∧ decodeConfig (headerLen h) operands = .command i) ∨
      (headerOp h = 0x02 ∧ decodeProcess (headerLen h) operands = .command i) ∨
      (headerOp h = 0x03 ∧ decodeStop (headerLen h) operands = .command i) := by
  rw [decode]
  split
  · next h1 => rw [h1]; simp
  · next h1 =>
    split
    · next h2 => rw [h2]; simp
    · next h2 =>
      split
      · next h3 => rw [h3]; simp
      · next h3 => exact iff_of_false nofun (by tauto)

/-- Every packet that is a command: one form for each row of the opcode table. -/
theorem decode_eq_command_iff (p : List Word) (i : Instr) :
    decode p = .command i ↔
      (∃ h t, p = [h, t] ∧ headerOp h = 0x01 ∧ headerLen h = 0 ∧ i = .config t) ∨
      (∃ h r x, p = h :: r :: x ∧ headerOp h = 0x02 ∧ x.length = (headerLen h).toNat ∧ i = .process r x) ∨
      (∃ h, p = [h] ∧ headerOp h = 0x03 ∧ headerLen h = 0 ∧ i = .stop) := by
  cases p with
  | nil => simp [decode]
  | cons h operands =>
    rw [decode_cons_eq_command_iff, decodeConfig_eq_command_iff, decodeProcess_eq_command_iff,
      decodeStop_eq_command_iff]
    constructor
    · rintro (⟨hop, hlen, t, rfl, rfl⟩ | ⟨hop, r, x, rfl, hx, rfl⟩ | ⟨hop, hlen, rfl, rfl⟩)
      · exact .inl ⟨h, t, rfl, hop, hlen, rfl⟩
      · exact .inr (.inl ⟨h, r, x, rfl, hop, hx, rfl⟩)
      · exact .inr (.inr ⟨h, rfl, hop, hlen, rfl⟩)
    · rintro (⟨_, t, ⟨⟩, hop, hlen, rfl⟩ | ⟨_, r, x, ⟨⟩, hop, hx, rfl⟩ | ⟨_, ⟨⟩, hop, hlen, rfl⟩)
      · exact .inl ⟨hop, hlen, t, rfl, rfl⟩
      · exact .inr (.inl ⟨hop, r, x, rfl, hx, rfl⟩)
      · exact .inr (.inr ⟨hop, hlen, rfl, rfl⟩)

theorem decode_eq_config_iff (p : List Word) (t : Word) :
    decode p = .command (.config t) ↔ ∃ h, p = [h, t] ∧ headerOp h = 0x01 ∧ headerLen h = 0 := by
  simp [decode_eq_command_iff]

theorem decode_eq_process_iff (p : List Word) (r : Word) (x : List Word) :
    decode p = .command (.process r x) ↔
      ∃ h, p = h :: r :: x ∧ headerOp h = 0x02 ∧ x.length = (headerLen h).toNat := by
  simp [decode_eq_command_iff]

theorem decode_eq_stop_iff (p : List Word) :
    decode p = .command .stop ↔ ∃ h, p = [h] ∧ headerOp h = 0x03 ∧ headerLen h = 0 := by
  simp [decode_eq_command_iff]

/-! ### Encoding and decoding (R54, R55, R65) -/

/-- Settles O1, command by command: the packet that `encode` writes has the form of its arm of `decode`. -/
theorem decodeOfEncode : Obligations.DecodeOfEncode := by
  intro i hi
  cases i with
  | config t => exact (decode_eq_config_iff _ t).2 ⟨_, rfl, headerOp_header _ _, headerLen_header _ _⟩
  | process r x =>
    have hlength : x.length = (BitVec.ofNat 24 x.length).toNat := by
      rw [BitVec.toNat_ofNat, Nat.mod_eq_of_lt ((wellFormed_process_iff r x).1 hi)]
    refine (decode_eq_process_iff _ r x).2 ⟨_, rfl, headerOp_header _ _, ?_⟩
    rw [headerLen_header]
    exact hlength
  | stop => exact (decode_eq_stop_iff _).2 ⟨_, rfl, headerOp_header _ _, headerLen_header _ _⟩

/-- A header word is the one that `encode` writes for the fields it holds. -/
theorem header_eq_of_fields {h : Word} {op : BitVec 8} {len : BitVec 24} (hop : headerOp h = op)
    (hlen : headerLen h = len) : header op len = h := by
  rw [← hop, ← hlen, header_headerOp_headerLen]

/-- Settles O2, arm by arm: the two header fields leave no freedom in the header word, and the length field
bounds the block. -/
theorem encodeOfDecode : Obligations.EncodeOfDecode := by
  intro p i hdec
  obtain ⟨h, t, rfl, hop, hlen, rfl⟩ | ⟨h, r, x, rfl, hop, hx, rfl⟩ | ⟨h, rfl, hop, hlen, rfl⟩ :=
    (decode_eq_command_iff p i).1 hdec
  · exact ⟨wellFormed_config t, by rw [encode, header_eq_of_fields hop hlen]⟩
  · have hlen : headerLen h = BitVec.ofNat 24 x.length := by rw [hx, BitVec.ofNat_toNat, BitVec.setWidth_eq]
    refine ⟨(wellFormed_process_iff r x).2 ?_, by rw [encode, header_eq_of_fields hop hlen]⟩
    rw [hx]
    exact (headerLen h).isLt
  · exact ⟨wellFormed_stop, by rw [encode, header_eq_of_fields hop hlen]⟩

/-- Some packet spells a command exactly where it is well formed (R140). -/
theorem exists_decode_eq_iff_wellFormed (i : Instr) :
    (∃ p, decode p = .command i) ↔ i.wellFormed = true :=
  ⟨fun ⟨p, hp⟩ => (encodeOfDecode p i hp).1, fun hi => ⟨encode i, decodeOfEncode i hi⟩⟩

/-- Settles O6: the length field is the only bound of a well-formed command. -/
theorem blockLengthLimit : Obligations.BlockLengthLimit := by
  intro r x
  rw [exists_decode_eq_iff_wellFormed, wellFormed_process_iff]
  omega

/-- Settles O3: the three arms, with the header fields read as numbers. -/
theorem decodeArmsExactly : Obligations.DecodeArmsExactly := by
  refine ⟨fun p t => ?config, fun p r x => ?process, fun p => ?stop⟩
  case config =>
    refine (decode_eq_config_iff p t).trans (exists_congr fun h => and_congr_right' ?_)
    exact and_congr (headerOp_eq_iff h 0x01) (headerLen_eq_iff h 0)
  case process =>
    refine (decode_eq_process_iff p r x).trans (exists_congr fun h => and_congr_right fun hp => ?_)
    have hlength : p.length = x.length + 2 := congrArg List.length hp
    rw [headerLen_toNat, hlength, Nat.add_right_cancel_iff]
    exact and_congr_left' (headerOp_eq_iff h 0x02)
  case stop =>
    refine (decode_eq_stop_iff p).trans (exists_congr fun h => and_congr_right' ?_)
    exact and_congr (headerOp_eq_iff h 0x03) (headerLen_eq_iff h 0)

/-- Settles O5, by running `decode` on the words. -/
theorem writtenOutWordsDecode : Obligations.WrittenOutWordsDecode := by
  refine ⟨?config, ?process, ?processEmpty, ?stop, ?reservedLen, ?unassignedOpcode⟩ <;> decide

/-! ### Illegal packets (R62, R116, R117) -/

/-- What is no command is illegal: `decode` has no third answer. -/
theorem exists_decode_eq_illegal_iff (p : List Word) :
    (∃ why, decode p = .illegal why) ↔ ¬ ∃ i, decode p = .command i := by
  cases decode p with
  | command i => simp
  | illegal why => simp

/-- The packets that are commands, told by their header and their word count alone. -/
theorem exists_decode_cons_eq_command_iff (h : Word) (rest : List Word) :
    (∃ i, decode (h :: rest) = .command i) ↔
      (h.toNat / 2 ^ 24 = 1 ∧ h.toNat % 2 ^ 24 = 0 ∧ rest.length = 1) ∨
      (h.toNat / 2 ^ 24 = 2 ∧ rest.length = h.toNat % 2 ^ 24 + 1) ∨
      (h.toNat / 2 ^ 24 = 3 ∧ h.toNat % 2 ^ 24 = 0 ∧ rest.length = 0) := by
  obtain ⟨config_iff, process_iff, stop_iff⟩ := decodeArmsExactly
  constructor
  · rintro ⟨i, hdec⟩
    cases i with
    | config t =>
      obtain ⟨_, ⟨⟩, hop, hlen⟩ := (config_iff _ t).1 hdec
      exact .inl ⟨hop, hlen, rfl⟩
    | process r x =>
      obtain ⟨_, ⟨⟩, hop, hcount⟩ := (process_iff _ r x).1 hdec
      exact .inr (.inl ⟨hop, Nat.succ.inj hcount⟩)
    | stop =>
      obtain ⟨_, ⟨⟩, hop, hlen⟩ := (stop_iff _).1 hdec
      exact .inr (.inr ⟨hop, hlen, rfl⟩)
  · rintro (⟨hop, hlen, hcount⟩ | ⟨hop, hcount⟩ | ⟨hop, hlen, hcount⟩)
    · obtain ⟨t, rfl⟩ := List.length_eq_one_iff.1 hcount
      exact ⟨.config t, (config_iff _ t).2 ⟨h, rfl, hop, hlen⟩⟩
    · obtain ⟨r, x, rfl⟩ := List.exists_cons_of_length_eq_add_one hcount
      exact ⟨.process r x, (process_iff _ r x).2 ⟨h, rfl, hop, congrArg Nat.succ hcount⟩⟩
    · obtain rfl := List.eq_nil_of_length_eq_zero hcount
      exact ⟨.stop, (stop_iff _).2 ⟨h, rfl, hop, hlen⟩⟩

/-- The clauses of R62, in the order of the rule, are together the complement of the three arms. -/
theorem exists_decode_cons_eq_illegal_iff (h : Word) (rest : List Word) :
    (∃ why, decode (h :: rest) = .illegal why) ↔
      (h.toNat / 2 ^ 24 = 0 ∨ 4 ≤ h.toNat / 2 ^ 24) ∨
      (h.toNat / 2 ^ 24 = 1 ∧ (h.toNat % 2 ^ 24 ≠ 0 ∨ (h :: rest).length ≠ 2)) ∨
      (h.toNat / 2 ^ 24 = 2 ∧ (h :: rest).length ≠ h.toNat % 2 ^ 24 + 2) ∨
      (h.toNat / 2 ^ 24 = 3 ∧ (h.toNat % 2 ^ 24 ≠ 0 ∨ (h :: rest).length ≠ 1)) := by
  rw [exists_decode_eq_illegal_iff, exists_decode_cons_eq_command_iff, List.length_cons]
  omega

end Sys2Proof

namespace Sys2Proof.Machine

theorem illegalPacket_of_error {s : State} (hs : s.state = .error) : illegalPacket s = s := by
  rw [illegalPacket, hs]

theorem illegalPacket_of_ne_error {s : State} (hs : s.state ≠ .error) :
    illegalPacket s = raiseError .illegal s := by
  obtain ⟨herr, _⟩ | ⟨_, hraise⟩ := illegalPacket_cases s
  · exact absurd herr hs
  · exact hraise

theorem step_of_illegal {s : State} {p : List Word} {rest : List Event} {why : IllegalReason}
    (hcmd : s.cmd = .packet p :: rest) (hdec : decode p = .illegal why) :
    step s = .next (illegalPacket { s with cmd := rest }) := by
  simp only [step, fetch, hcmd, hdec]

/-- Settles O4: the clauses of R62 by the header and the word count, the step by the two things that an illegal
packet can do. -/
theorem illegalPacketsExactly : Obligations.IllegalPacketsExactly := by
  refine ⟨fun p => ?clauses, fun s p rest why hcmd hdec => ⟨fun hs => ?raised, fun hs => ?dropped⟩⟩
  case clauses =>
    cases p with
    | nil => exact iff_of_true ⟨.noWords, rfl⟩ (.inl rfl)
    | cons h rest =>
      rw [exists_decode_cons_eq_illegal_iff]
      constructor
      · exact fun hclause => .inr ⟨h, rest, rfl, hclause⟩
      · rintro (hnil | ⟨h', rest', hcons, hclause⟩)
        · cases hnil
        · obtain ⟨rfl, rfl⟩ := List.cons.inj hcons
          exact hclause
  case raised =>
    rw [step_of_illegal hcmd hdec, illegalPacket_of_ne_error (s := { s with cmd := rest }) hs]
    rfl
  case dropped => rw [step_of_illegal hcmd hdec, illegalPacket_of_error (s := { s with cmd := rest }) hs]

end Sys2Proof.Machine
end

section
/-! PROOFS. Output packets (spec/30_encoding.md, R57 to R60): the words of `BLK` and `ERR`, that no other packet
is ever handed out, and the 16-bit pattern of an output sample. -/

namespace Sys2Proof.Machine

/-! ### The words of the two packets (R58, R59) -/

@[simp] theorem length_blkPacket (out : List OutWord) : (blkPacket out).length = out.length + 2 := rfl

/-- The two header words of a `BLK` packet as numbers: the tag beside the length, which fits its 24 bits. -/
theorem blkPacket_header {out : List OutWord} (hout : out.length < 2 ^ 24) :
    ∃ h0 h1, blkPacket out = h0 :: h1 :: out ∧ h0.toNat / 256 = 0x10 ∧
      h0.toNat % 256 = out.length / 65536 ∧ h1.toNat = out.length % 65536 := by
  refine ⟨_, _, rfl, ?_⟩
  rw [BitVec.toNat_ofNat, BitVec.toNat_ofNat, Nat.mod_eq_of_lt hout]
  omega

/-- Settles O32, by the header words; the two examples are closed. -/
theorem blkPacketWords : Obligations.BlkPacketWords := by
  refine ⟨fun out hout => ⟨?length, blkPacket_header hout⟩, rfl, rfl⟩
  case length => rw [length_blkPacket, Nat.add_comm]

/-- Settles O33: the packet of each cause is closed. -/
theorem errPacketWords : Obligations.ErrPacketWords := ⟨rfl, rfl, rfl, rfl⟩

/-! ### The form of every packet handed out (R57) -/

theorem packetOk_errPacket {c : Cause} (hc : c ≠ .none) : PacketOk (errPacket c) := .inr ⟨c, hc, rfl⟩

/-- Either kind of packet has two header words and its own tag in the first one. -/
theorem PacketOk.header {p : OutPacket} (hp : PacketOk p) :
    2 ≤ p.length ∧ ∃ h rest, p = h :: rest ∧ (h.toNat / 256 = 0x10 ∨ h.toNat / 256 = 0xE0) := by
  obtain ⟨out, hout, rfl⟩ | ⟨c, _, rfl⟩ := hp
  · obtain ⟨h0, h1, hwords, htag, _, _⟩ := blkPacket_header hout
    exact ⟨Nat.le_add_left 2 out.length, h0, h1 :: out, hwords, .inl htag⟩
  · exact ⟨le_rfl, _, _, rfl, .inr rfl⟩

theorem PortOk.of_outp_eq {s s' : State} (hs : PortOk s) (houtp : s'.outp = s.outp) : PortOk s' := by
  rw [PortOk, houtp]
  exact hs

theorem PortOk.of_outp_append {s s' : State} (hs : PortOk s) {p : OutPacket} (hp : PacketOk p)
    (houtp : s'.outp = s.outp ++ [p]) : PortOk s' := by
  intro q hq
  rw [houtp, List.mem_append, List.mem_singleton] at hq
  obtain hold | rfl := hq
  · exact hs q hold
  · exact hp

theorem PortOk.raiseError {s : State} (hs : PortOk s) {c : Cause} (hc : c ≠ .none) :
    PortOk (raiseError c s) :=
  hs.of_outp_append (packetOk_errPacket hc) (raiseError_outp c s)

theorem PortOk.emitBlock {s : State} (hs : PortOk s) {out : List OutWord} (hout : out.length < 2 ^ 24) :
    PortOk (emitBlock out s) := by
  obtain ⟨_, hemit⟩ | ⟨_, _, hkeep⟩ := emitBlock_cases out s
  · rw [hemit]
    exact hs.of_outp_append (.inl ⟨out, hout, rfl⟩) (emit_outp _ s)
  · rw [hkeep]
    exact hs

theorem PortOk.illegalPacket {s : State} (hs : PortOk s) : PortOk (illegalPacket s) := by
  obtain ⟨_, hdrop⟩ | ⟨_, hraise⟩ := illegalPacket_cases s
  · rw [hdrop]
    exact hs
  · rw [hraise]
    exact hs.raiseError (by decide)

/-- At a supported rate the output is no longer than the input (R82 (c)). -/
theorem outLen_le {n r t : Nat} (hpos : 0 < r) (hle : t ≤ r) : outLen n r t ≤ n := by
  have hmul : n * t ≤ n * r := Nat.mul_le_mul_left n hle
  rw [outLen, ← Nat.lt_succ_iff, Nat.div_lt_iff_lt_mul (by omega)]
  calc 2 * n * t + r = 2 * (n * t) + r := by ring
    _ < 2 * (n * r) + 2 * r := by omega
    _ = n.succ * (2 * r) := by rw [Nat.succ_eq_add_one]; ring

/-- The block that a well-formed `PROCESS` emits fits the length field of `BLK`. -/
theorem length_outputBlock_lt {r t : Word} {x : List Word} (hwf : (Instr.process r x).wellFormed = true)
    (hpos : 1 ≤ rateOf t) (hle : rateOf t ≤ rateOf r) :
    (outputBlock (rateOf r).toNat (rateOf t).toNat x).length < 2 ^ 24 := by
  rw [length_outputBlock]
  exact (outLen_le (by omega) (by omega)).trans_lt ((wellFormed_process_iff r x).1 hwf)

/-- A command that a packet spells hands out only packets of the right form; the bound on its block is needed
for the length field of `BLK`. -/
theorem PortOk.exec {i : Instr} {s s' : State} (hs : PortOk s) (hwf : i.wellFormed = true)
    (h : exec i s = .next s') : PortOk s' := by
  obtain ⟨_, _, rfl⟩ | ⟨_, rfl⟩ | ⟨_, t, _, ⟨_, rfl⟩ | ⟨_, rfl⟩⟩ | ⟨_, _, _, rfl⟩ | ⟨_, _, _, _, rfl⟩ |
    ⟨_, r, x, t, rfl, _, hpos, ⟨_, rfl⟩ | ⟨hle, rfl⟩⟩ := exec_next_cases i s s' h
  · exact hs
  · exact hs.of_outp_eq (discardSession_outp s)
  · exact hs.raiseError (by decide)
  · exact hs.of_outp_eq (openSession_outp t s)
  · exact hs.raiseError (by decide)
  · exact hs.raiseError (by decide)
  · exact hs.raiseError (by decide)
  · exact hs.emitBlock (length_outputBlock_lt hwf hpos hle)

/-- Taking the event changes nothing on `OUTP`, and a packet that decodes spells a well-formed command. -/
theorem PortOk.step {s s' : State} (hs : PortOk s) (h : step s = .next s') : PortOk s' := by
  have htaken (rest : List Event) : PortOk { s with cmd := rest } := hs.of_outp_eq rfl
  obtain ⟨_, hstep⟩ | ⟨rest, _, hstep⟩ | ⟨p, rest, i, _, hdec, hstep⟩ | ⟨p, rest, why, _, _, hstep⟩ :=
    step_eq_of_event s
  · obtain rfl := Host.Outcome.next.inj (hstep ▸ h)
    exact hs
  · obtain rfl := Host.Outcome.next.inj (hstep ▸ h)
    exact hs.of_outp_eq (hardwareReset_outp _)
  · exact (htaken rest).exec (encodeOfDecode p i hdec).1 (hstep ▸ h)
  · obtain rfl := Host.Outcome.next.inj (hstep ▸ h)
    exact (htaken rest).illegalPacket

/-- Settles O30: nothing is on `OUTP` at reset, and each thing a step can do keeps the form. -/
theorem outputPortFormKept : Obligations.OutputPortFormKept :=
  ⟨fun _ hp => absurd hp List.not_mem_nil, fun _ _ hs h => hs.step h, fun _ hp => hp.header⟩

/-! ### The output sample (R60) -/

/-- The pattern of an integer is its residue, whether or not it is in range. -/
theorem toI16_toNat (q : ℤ) : ((toI16 q).toNat : ℤ) = q % 65536 := by
  rw [toI16, BitVec.toNat_ofInt]
  omega

/-- A pattern stands for itself with the sign bit clear, and for itself less `2^16` with it set. -/
theorem outWord_toInt (p : OutWord) :
    p.toInt = if p.toNat < 32768 then (p.toNat : ℤ) else (p.toNat : ℤ) - 65536 := by
  rw [BitVec.toInt_eq_toNat_cond]
  split
  · rw [if_pos (by omega)]
  · rw [if_neg (by omega)]
    rfl

/-- Settles O34: the residue, the value read back, and the eight reference patterns by their numbers. -/
theorem outputSamplePattern : Obligations.OutputSamplePattern := by
  refine ⟨fun q hlo hhi => ⟨toI16_toNat q, toInt_toI16 hlo hhi⟩, outWord_toInt, ?_⟩
  decide

end Sys2Proof.Machine
end

section
/-! PROOFS. The input sample (spec/30_encoding.md, R56): the fields of a pattern as numbers, and its value class
by class. -/

namespace Sys2Proof.Machine

/-! ### The fields `s`, `e`, `f` -/

theorem sampleExponent_eq (w : Word) : sampleExponent w = w.toNat / 2 ^ 23 % 256 := by
  rw [sampleExponent, BitVec.extractLsb'_toNat, Nat.shiftRight_eq_div_pow]

theorem sampleFraction_eq (w : Word) : sampleFraction w = w.toNat % 2 ^ 23 := by
  rw [sampleFraction, BitVec.extractLsb'_toNat, Nat.shiftRight_zero]

/-- The sign field is the top bit, so what is above the other 31 bits is 0 or 1. -/
theorem sampleSign_toNat (w : Word) : (sampleSign w).toNat = w.toNat / 2 ^ 31 := by
  have hw := w.isLt
  rw [sampleSign, BitVec.getLsbD, Nat.toNat_testBit]
  omega

/-! ### The arithmetic of a finite value -/

theorem withSign_eq_pow (negative : Bool) (m : ℕ) :
    (withSign negative m : ℚ) = (-1) ^ negative.toNat * (m : ℚ) := by
  cases negative <;> simp [withSign]

/-- The two cases of the scaling are one power of two with an integer exponent. -/
theorem timesPowTwo_eq_zpow (m k : ℤ) : timesPowTwo m k = (m : ℚ) * (2 : ℚ) ^ k := by
  unfold timesPowTwo
  split
  · next hk =>
    obtain ⟨n, rfl⟩ := Int.eq_ofNat_of_zero_le hk
    simp
  · next hk =>
    obtain ⟨n, hn⟩ := Int.eq_ofNat_of_zero_le (show 0 ≤ -k by omega)
    obtain rfl : k = -n := by omega
    rw [Rat.mkRat_eq_div, zpow_neg, div_eq_mul_inv]
    simp

/-! ### The value, class by class -/

theorem sampleValue_of_exponent_zero {w : Word} (he : sampleExponent w = 0) :
    sampleValue w = .number (.fin
      ((-1) ^ (sampleSign w).toNat * (sampleFraction w : ℚ) * (2 : ℚ) ^ (-149 : ℤ))) := by
  rw [← withSign_eq_pow, ← timesPowTwo_eq_zpow]
  simp [sampleValue, he]

theorem sampleValue_of_normal {w : Word} (hlo : sampleExponent w ≠ 0) (hhi : sampleExponent w ≠ 255) :
    sampleValue w = .number (.fin
      ((-1) ^ (sampleSign w).toNat * (2 ^ 23 + sampleFraction w : ℚ) *
        (2 : ℚ) ^ ((sampleExponent w : ℤ) - 150))) := by
  have hsig : (2 ^ 23 + sampleFraction w : ℚ) = ((2 ^ 23 + sampleFraction w : ℕ) : ℚ) := by push_cast; rfl
  rw [hsig, ← withSign_eq_pow, ← timesPowTwo_eq_zpow]
  simp [sampleValue, hlo, hhi]

theorem sampleValue_of_infinity {w : Word} (he : sampleExponent w = 255) (hf : sampleFraction w = 0) :
    sampleValue w = .number (if (sampleSign w).toNat = 0 then .posInf else .negInf) := by
  cases hs : sampleSign w <;> simp [sampleValue, he, hf, hs]

theorem sampleValue_of_nan {w : Word} (he : sampleExponent w = 255) (hf : sampleFraction w ≠ 0) :
    sampleValue w = .nan := by
  simp [sampleValue, he, hf]

/-- Settles O44: one lemma for each class, at the fields read as numbers; zero is the subnormal of fraction 0. The
reference patterns are closed. -/
theorem sampleValueIsBinary32 : Obligations.SampleValueIsBinary32 := by
  refine ⟨fun w => ?classes, ?references⟩
  case classes =>
    simp only [← sampleSign_toNat, ← sampleExponent_eq, ← sampleFraction_eq]
    refine ⟨fun he hf => ?zero, fun he _ => sampleValue_of_exponent_zero he,
      fun hlo hhi => sampleValue_of_normal (by omega) (by omega),
      sampleValue_of_infinity, sampleValue_of_nan⟩
    case zero =>
      rw [sampleValue_of_exponent_zero he, hf]
      simp
  case references => decide +kernel

end Sys2Proof.Machine
end

section
/-! PROOFS. Listings (spec/30_encoding.md, R64, R66): the packet of a command line, and `QUANTIZE` as another
spelling of `PROCESS`. -/

namespace Sys2Proof.Machine

/-! ### Single lines -/

theorem commandEvents_of_wellFormed {i : Instr} (hi : i.wellFormed = true) :
    commandEvents i = some [.packet (encode i)] := if_pos hi

@[simp] theorem lineEvents_command (rate : Option Word) (i : Instr) :
    lineEvents rate (.command i) = commandEvents i := rfl

/-- Settles O57: a command line is the packet of its command, which decodes back to it (O1); the texts are closed. -/
theorem linesAssembleToTheirCommands : Obligations.LinesAssembleToTheirCommands := by
  refine ⟨fun rate i hi => ?command, fun _ => rfl, fun _ _ => rfl, ?config, ?process, ?stop⟩
  case command => exact ⟨encode i, commandEvents_of_wellFormed hi, decodeOfEncode i hi⟩
  case config => decide
  case process => decide
  case stop => decide

/-- At a known rate `QUANTIZE` has the events of the `PROCESS` that it stands for. -/
theorem lineEvents_quantize_some (t : Word) (x : List Word) :
    lineEvents (some t) (.quantize x) = lineEvents (some t) (.command (.process t x)) := rfl

@[simp] theorem lineEvents_quantize_none (x : List Word) : lineEvents none (.quantize x) = none := rfl

/-! ### Whole listings -/

/-- A listing begins with the events of its first line and goes on at the rate that this line leaves. -/
theorem assemble_cons (rate : Option Word) (l : Line) (ls : List Line) :
    assemble rate (l :: ls) =
      (lineEvents rate l).bind fun now => (assemble (rateAfter rate l) ls).map (now ++ ·) := by
  rw [assemble]
  cases lineEvents rate l <;> cases assemble (rateAfter rate l) ls <;> rfl

/-- Two listings with one beginning assemble alike where their ends do, at the rate that the beginning leaves. -/
theorem assemble_append_congr {rate : Option Word} {ls ms ms' : List Line}
    (h : assemble (ls.foldl rateAfter rate) ms = assemble (ls.foldl rateAfter rate) ms') :
    assemble rate (ls ++ ms) = assemble rate (ls ++ ms') := by
  rw [assemble_append rate ls ms, assemble_append rate ls ms', h]

/-- Where the rate is known, `QUANTIZE` at the head of a listing may be written out. -/
theorem assemble_quantize_cons (t : Word) (x : List Word) (after : List Line) :
    assemble (some t) (.quantize x :: after) = assemble (some t) (.command (.process t x) :: after) := by
  rw [assemble_cons, assemble_cons, lineEvents_quantize_some, rateAfter_quantize, rateAfter_process]

/-- After a `CONFIG t` and no further one, the rate is `t`, whatever stood before. -/
theorem foldl_rateAfter_config {between : List Line} (hbetween : Claims.noConfig between)
    (before : List Line) (rate : Option Word) (t : Word) :
    (before ++ .command (.config t) :: between).foldl rateAfter rate = some t := by
  rw [List.foldl_append, List.foldl_cons, rateAfter_config, foldl_rateAfter_of_no_config hbetween]

/-- The `QUANTIZE` below a `CONFIG t`, with no further one between, may be written out anywhere in a listing. -/
theorem assemble_quantize_after_config {between : List Line} (hbetween : Claims.noConfig between)
    (before after : List Line) (t : Word) (x : List Word) :
    assemble none (before ++ .command (.config t) :: between ++ .quantize x :: after) =
      assemble none (before ++ .command (.config t) :: between ++ .command (.process t x) :: after) := by
  apply assemble_append_congr
  rw [foldl_rateAfter_config hbetween]
  exact assemble_quantize_cons t x after

/-- Before every `CONFIG` the rate is not known, and the listing has no events. -/
theorem assemble_quantize_without_config {before : List Line} (hbefore : Claims.noConfig before)
    (after : List Line) (x : List Word) : assemble none (before ++ .quantize x :: after) = none := by
  rw [assemble_append, foldl_rateAfter_of_no_config hbefore, assemble_cons, lineEvents_quantize_none]
  cases assemble none before <;> rfl

/-- The two packets of a session of one block, where the block fits its packet. -/
theorem assemble_config_process (t r : Word) {x : List Word} (hx : x.length < 2 ^ 24) :
    assemble none [.command (.config t), .command (.process r x)] =
      some [.packet (encode (.config t)), .packet (encode (.process r x))] := by
  have hconfig := commandEvents_of_wellFormed (wellFormed_config t)
  have hprocess := commandEvents_of_wellFormed ((wellFormed_process_iff r x).2 hx)
  rw [assemble_cons, assemble_cons, lineEvents_command, lineEvents_command, hconfig, hprocess]
  rfl

/-- Settles O56: the first clause is the second one with no other lines. -/
theorem quantizeExpandsToProcess : Obligations.QuantizeExpandsToProcess := by
  refine ⟨fun t x => ?expansion, fun before between after t x hbetween =>
    assemble_quantize_after_config hbetween before after t x,
    fun before after x hbefore => assemble_quantize_without_config hbefore after x⟩
  case expansion =>
    have hnone : Claims.noConfig [] := fun _ => List.not_mem_nil
    have hexpand := assemble_quantize_after_config hnone [] [] t x
    refine ⟨hexpand, fun hx => hexpand.trans ?_⟩
    exact assemble_config_process t t (by omega)

end Sys2Proof.Machine
end

section
/-! PROOFS. The session commands and the lifecycle (spec/40_session_commands.md, R70 to R73): the effect of each
command where its guards hold, the lifecycle table, and that no step looks at what was emitted before it. -/

namespace Sys2Proof.Machine

/-! ### A command where its guards hold (R70, R100, R102, R117) -/

theorem exec_of_error {s : State} (hs : s.state = .error) {i : Instr} (hi : i ≠ .stop) : exec i s = .next s := by
  cases i with
  | config t => simp only [exec, execConfig, hs]
  | process r x => simp only [exec, execProcess, hs]
  | stop => exact absurd rfl hi

theorem exec_config_of_ready {s : State} (hs : s.state = .ready) (t : Word) :
    exec (.config t) s = .next (raiseError .protocol s) := by
  simp only [exec, execConfig, hs]

theorem exec_config_of_nonpos {s : State} (hs : s.state = .unconf) {t : Word} (ht : rateOf t ≤ 0) :
    exec (.config t) s = .next (raiseError .cfgTarget s) := by
  simp only [exec, execConfig, hs, if_pos ht]

theorem exec_config_of_pos {s : State} (hs : s.state = .unconf) {t : Word} (ht : 1 ≤ rateOf t) :
    exec (.config t) s = .next (openSession t s) := by
  simp only [exec, execConfig, hs, if_neg (show ¬ rateOf t ≤ 0 by omega)]

theorem exec_process_of_unconf {s : State} (hs : s.state = .unconf) (r : Word) (x : List Word) :
    exec (.process r x) s = .next (raiseError .protocol s) := by
  simp only [exec, execProcess, hs]

theorem targetRate_of_trate {s : State} {t : Word} (htrate : s.trate = some t) (ht : 1 ≤ rateOf t) :
    targetRate s = some (rateOf t) :=
  (targetRate_eq_some s _).2 ⟨t, htrate, ht, rfl⟩

theorem exec_process_of_rate_lt {s : State} (hs : s.state = .ready) {r t : Word} (htrate : s.trate = some t)
    (ht : 1 ≤ rateOf t) (hr : rateOf r < rateOf t) (x : List Word) :
    exec (.process r x) s = .next (raiseError .cfgRates s) := by
  simp only [exec, execProcess, hs, targetRate_of_trate htrate ht, if_pos hr]

theorem exec_process_of_rate_le {s : State} (hs : s.state = .ready) {r t : Word} (htrate : s.trate = some t)
    (ht : 1 ≤ rateOf t) (hr : rateOf t ≤ rateOf r) (x : List Word) :
    exec (.process r x) s = .next (emitBlock (outputBlock (rateOf r).toNat (rateOf t).toNat x) s) := by
  simp only [exec, execProcess, hs, targetRate_of_trate htrate ht, if_neg (not_lt.2 hr)]

/-- Settles O11: one equation of `exec` for each clause. -/
theorem configByState : Obligations.ConfigByState := fun t _ =>
  ⟨fun hs => exec_config_of_pos hs, fun hs => exec_config_of_nonpos hs, fun hs => exec_config_of_ready hs t,
    fun hs => exec_of_error hs (by simp)⟩

/-- In `UNCONF` the invariant leaves no session and no cause to discard (R22, R72). -/
theorem discardSession_of_unconf {s : State} (hs : Inv s) (hu : s.state = .unconf) : discardSession s = s := by
  have hcause : s.cause = .none := not_not.1 (mt hs.errorIffCause.2 (by simp [hu]))
  rw [discardSession, ← hs.unconfTrate hu, ← hu, ← hcause]

/-- Settles O12: `STOP` discards the session, of which there is none in `UNCONF`. -/
theorem stopInEveryState : Obligations.StopInEveryState := by
  refine ⟨exec_stop, fun s hs hu => ?_⟩
  rw [exec_stop, discardSession_of_unconf hs hu]

/-! ### The lifecycle table (R73) -/

theorem lifecycleCell_stop {p : List Word} (hdec : decode p = .command .stop) (s : State) :
    Claims.lifecycleCell s p = (.unconf, s.outp) := by
  cases hs : s.state <;> simp only [Claims.lifecycleCell, hs, hdec]

theorem lifecycleCell_of_error {s : State} (hs : s.state = .error) {p : List Word}
    (hdec : decode p ≠ .command .stop) : Claims.lifecycleCell s p = (.error, s.outp) := by
  simp only [Claims.lifecycleCell, hs]

theorem lifecycleCell_illegal {s : State} (hs : s.state ≠ .error) {p : List Word} {why : IllegalReason}
    (hdec : decode p = .illegal why) : Claims.lifecycleCell s p = (.error, s.outp ++ [errPacket .illegal]) := by
  cases h : s.state with
  | unconf => simp only [Claims.lifecycleCell, h, hdec]; rfl
  | ready => simp only [Claims.lifecycleCell, h, hdec]; rfl
  | error => exact absurd h hs

theorem emitBlock_outp (out : List OutWord) (s : State) :
    (emitBlock out s).outp =
      if out.length = 0 ∧ Config.emitEmpty = false then s.outp else s.outp ++ [blkPacket out] := by
  obtain ⟨hemit, heq⟩ | ⟨rfl, hkeep, heq⟩ := emitBlock_cases out s
  · have hnot : ¬ (out.length = 0 ∧ Config.emitEmpty = false) := by
      rintro ⟨hlen, hfalse⟩
      simp [hlen, hfalse] at hemit
    rw [heq, if_neg hnot, emit_outp]
  · rw [heq, if_pos ⟨rfl, hkeep⟩]

/-- The cells of the three commands, one for each thing that a command can do. -/
theorem exec_fills_lifecycleCell {i : Instr} {s s' : State} {p : List Word} (hdec : decode p = .command i)
    (h : exec i s = .next s') : (s'.state, s'.outp) = Claims.lifecycleCell s p := by
  obtain ⟨hs, hi, rfl⟩ | ⟨rfl, rfl⟩ | ⟨hs, t, rfl, ⟨ht, rfl⟩ | ⟨ht, rfl⟩⟩ | ⟨hs, t, rfl, rfl⟩ |
    ⟨hs, r, x, rfl, rfl⟩ | ⟨hs, r, x, t, rfl, htrate, _, ⟨hr, rfl⟩ | ⟨hr, rfl⟩⟩ := exec_next_cases i s s' h
  · rw [lifecycleCell_of_error hs (by simp [hdec, hi]), hs]
  · rw [lifecycleCell_stop hdec, discardSession_state, discardSession_outp]
  · simp only [Claims.lifecycleCell, hs, hdec, if_neg (show ¬ 1 ≤ rateOf t by omega)]
    rfl
  · simp only [Claims.lifecycleCell, hs, hdec, if_pos ht]
    rfl
  · simp only [Claims.lifecycleCell, hs, hdec]
    rfl
  · simp only [Claims.lifecycleCell, hs, hdec]
    rfl
  · simp only [Claims.lifecycleCell, hs, hdec, htrate, Option.getD_some, if_neg (not_le.2 hr)]
    rfl
  · simp only [Claims.lifecycleCell, hs, hdec, htrate, Option.getD_some, if_pos hr, emitBlock_state,
      emitBlock_outp, length_outputBlock, apply_ite (Prod.mk Lifecycle.ready)]

/-- The cells of an illegal packet. -/
theorem illegalPacket_fills_lifecycleCell {p : List Word} {why : IllegalReason} (hdec : decode p = .illegal why)
    (s : State) : ((illegalPacket s).state, (illegalPacket s).outp) = Claims.lifecycleCell s p := by
  obtain ⟨hs, heq⟩ | ⟨hs, heq⟩ := illegalPacket_cases s
  · rw [heq, lifecycleCell_of_error hs (by simp [hdec]), hs]
  · rw [heq, lifecycleCell_illegal hs hdec, raiseError_state, raiseError_outp]

/-- The table speaks of no event but the one that is taken. -/
theorem lifecycleCell_with_cmd (s : State) (rest : List Event) (p : List Word) :
    Claims.lifecycleCell { s with cmd := rest } p = Claims.lifecycleCell s p := rfl

theorem step_fills_lifecycleCell {s s' : State} {p : List Word} {rest : List Event}
    (hcmd : s.cmd = .packet p :: rest) (h : step s = .next s') :
    (s'.state, s'.outp) = Claims.lifecycleCell s p := by
  rw [← lifecycleCell_with_cmd s rest]
  cases hdec : decode p with
  | command i =>
    rw [step_of_command hcmd hdec] at h
    exact exec_fills_lifecycleCell hdec h
  | illegal why =>
    rw [step_of_illegal hcmd hdec] at h
    obtain rfl := Host.Outcome.next.inj h
    exact illegalPacket_fills_lifecycleCell hdec _

/-- Settles O24: the invariant gives the next state, and every cell is filled by what its packet does. -/
theorem lifecycleTable : Obligations.LifecycleTable := by
  intro s p rest hs hcmd
  obtain ⟨s', h⟩ := step_answers hs
  have hrest : s'.cmd = rest := by simpa [hcmd] using (emitsAtMostOne_step h).cmd
  exact ⟨s', h, hrest, step_fills_lifecycleCell hcmd h⟩

/-! ### No step looks at the packets emitted before it (R20, R42) -/

/-- Whatever has been emitted before `f` is applied to the rest of `s`, the outcome is the rest of `s'`, with
`emitted` handed out behind. -/
def EmitsBehind (f : State → Host.Outcome State Fault Refusal) (s s' : State) (emitted : List OutPacket) : Prop :=
  ∀ o : List OutPacket, f { s with outp := o } = .next { s' with outp := o ++ emitted }

/-- The definition at the output list of `s` itself. -/
theorem EmitsBehind.outp_eq {f : State → Host.Outcome State Fault Refusal} {s s' : State}
    {emitted : List OutPacket} (he : EmitsBehind f s s' emitted) (h : f s = .next s') :
    s'.outp = s.outp ++ emitted :=
  congrArg State.outp (Host.Outcome.next.inj (h.symm.trans (he s.outp)))

theorem emitsBehind_nil {f : State → Host.Outcome State Fault Refusal} {s s' : State}
    (h : ∀ o, f { s with outp := o } = .next { s' with outp := o }) : EmitsBehind f s s' [] := fun o => by
  rw [h, List.append_nil]

theorem emitBlock_emitsBehind (out : List OutWord) (s : State) :
    ∃ emitted, EmitsBehind (fun u => .next (emitBlock out u)) s (emitBlock out s) emitted := by
  by_cases hout : 0 < out.length ∨ Config.emitEmpty = true
  · refine ⟨[blkPacket out], fun o => ?_⟩
    simp only [emitBlock, if_pos hout]
    rfl
  · refine ⟨[], emitsBehind_nil fun o => ?_⟩
    simp only [emitBlock, if_neg hout]

theorem exec_emitsBehind {i : Instr} {s s' : State} (h : exec i s = .next s') :
    ∃ emitted, EmitsBehind (exec i) s s' emitted := by
  obtain ⟨hs, hi, rfl⟩ | ⟨rfl, rfl⟩ | ⟨hs, t, rfl, ⟨ht, rfl⟩ | ⟨ht, rfl⟩⟩ | ⟨hs, t, rfl, rfl⟩ |
    ⟨hs, r, x, rfl, rfl⟩ | ⟨hs, r, x, t, rfl, htrate, ht, ⟨hr, rfl⟩ | ⟨hr, rfl⟩⟩ := exec_next_cases i s s' h
  · exact ⟨[], emitsBehind_nil fun o => exec_of_error (s := { s' with outp := o }) hs hi⟩
  · exact ⟨[], emitsBehind_nil fun o => exec_stop { s with outp := o }⟩
  · exact ⟨[errPacket .cfgTarget], fun o => exec_config_of_nonpos (s := { s with outp := o }) hs ht⟩
  · exact ⟨[], emitsBehind_nil fun o => exec_config_of_pos (s := { s with outp := o }) hs ht⟩
  · exact ⟨[errPacket .protocol], fun o => exec_config_of_ready (s := { s with outp := o }) hs t⟩
  · exact ⟨[errPacket .protocol], fun o => exec_process_of_unconf (s := { s with outp := o }) hs r x⟩
  · exact ⟨[errPacket .cfgRates], fun o =>
      exec_process_of_rate_lt (s := { s with outp := o }) hs htrate ht hr x⟩
  · obtain ⟨emitted, hemit⟩ := emitBlock_emitsBehind (outputBlock (rateOf r).toNat (rateOf t).toNat x) s
    exact ⟨emitted, fun o =>
      (exec_process_of_rate_le (s := { s with outp := o }) hs htrate ht hr x).trans (hemit o)⟩

theorem illegalPacket_emitsBehind (s : State) :
    ∃ emitted, EmitsBehind (fun u => .next (illegalPacket u)) s (illegalPacket s) emitted := by
  obtain ⟨hs, heq⟩ | ⟨hs, heq⟩ := illegalPacket_cases s
  · rw [heq]
    exact ⟨[], emitsBehind_nil fun o =>
      congrArg Host.Outcome.next (illegalPacket_of_error (s := { s with outp := o }) hs)⟩
  · rw [heq]
    exact ⟨[errPacket .illegal], fun o =>
      congrArg Host.Outcome.next (illegalPacket_of_ne_error (s := { s with outp := o }) hs)⟩

theorem step_of_nil {s : State} (hcmd : s.cmd = []) : step s = .next s := by
  simp only [step, fetch, hcmd, idle_eq]

theorem step_of_reset {s : State} {rest : List Event} (hcmd : s.cmd = .reset :: rest) :
    step s = .next (hardwareReset { s with cmd := rest }) := by
  simp only [step, fetch, hcmd]

/-- Which event is next does not depend on the output list, and what it does appends to that list at most. -/
theorem step_emitsBehind {s s' : State} (h : step s = .next s') :
    ∃ emitted, EmitsBehind step s s' emitted := by
  obtain ⟨hcmd, hstep⟩ | ⟨rest, hcmd, hstep⟩ | ⟨p, rest, i, hcmd, hdec, hstep⟩ | ⟨p, rest, why, hcmd, hdec, hstep⟩ :=
    step_eq_of_event s
  · obtain rfl := Host.Outcome.next.inj (hstep ▸ h)
    exact ⟨[], emitsBehind_nil fun o => step_of_nil (s := { s with outp := o }) hcmd⟩
  · obtain rfl := Host.Outcome.next.inj (hstep ▸ h)
    exact ⟨[], emitsBehind_nil fun o => step_of_reset (s := { s with outp := o }) hcmd⟩
  · obtain ⟨emitted, he⟩ := exec_emitsBehind (hstep ▸ h)
    exact ⟨emitted, fun o => (step_of_command (s := { s with outp := o }) hcmd hdec).trans (he o)⟩
  · obtain rfl := Host.Outcome.next.inj (hstep ▸ h)
    obtain ⟨emitted, he⟩ := illegalPacket_emitsBehind { s with cmd := rest }
    exact ⟨emitted, fun o => (step_of_illegal (s := { s with outp := o }) hcmd hdec).trans (he o)⟩

/-- By induction on the number of steps: what a first step emitted is earlier output for the rest of the run. -/
theorem run_emitsBehind (k : Nat) {s s' : State} (h : run k s = .next s') :
    ∃ emitted, EmitsBehind (run k) s s' emitted := by
  induction k generalizing s with
  | zero =>
    obtain rfl := Host.Outcome.next.inj h
    exact ⟨[], emitsBehind_nil fun _ => run_zero _⟩
  | succ k ih =>
    obtain ⟨u, hu, hk⟩ := run_succ_next_cases h
    obtain ⟨first, hfirst⟩ := step_emitsBehind hu
    obtain ⟨later, hlater⟩ := ih hk
    refine ⟨first ++ later, fun o => ?_⟩
    rw [run_succ_of_next (hfirst o), hlater (o ++ first), List.append_assoc]

/-- Settles O54: a run emits behind whatever was emitted before it, its own start's output list included. -/
theorem runsIgnoreEarlierOutput : Obligations.RunsIgnoreEarlierOutput := by
  intro k s s' h
  obtain ⟨emitted, hemit⟩ := run_emitsBehind k h
  exact ⟨emitted, hemit.outp_eq h, hemit⟩

end Sys2Proof.Machine
end

section
/-! PROOFS. The resampler (spec/41_resample.md, R81 to R86, R89): `LEN` and `SEL` as one rounded quotient with the
two rates swapped, the laws that follow, and that only the picked samples matter. -/

namespace Sys2Proof.Machine

/-! ### `LEN` (R81, R82) -/

/-- `LEN` is the quotient `N*T ÷ R` rounded half up, whichever rate is the larger one. -/
theorem outLen_eq_roundHalfUp {r : Nat} (hr : 0 < r) (n t : Nat) :
    (outLen n r t : ℤ) = roundHalfUp (((n * t : Nat) : ℚ) / (r : ℚ)) := by
  have h := roundHalfUp_div ((n * t : Nat) : ℤ) r hr
  rw [Int.cast_natCast] at h
  rw [h, outLen]
  push_cast
  rw [mul_assoc]

theorem le_outLen_iff {r : Nat} (hr : 0 < r) (n t k : Nat) :
    k ≤ outLen n r t ↔ k * (2 * r) ≤ 2 * n * t + r :=
  Nat.le_div_iff_mul_le (by omega)

theorem outLen_mono {n m : Nat} (h : n ≤ m) (r t : Nat) : outLen n r t ≤ outLen m r t := by
  unfold outLen
  gcongr

theorem outLen_eq_zero_iff {r : Nat} (hr : 0 < r) (n t : Nat) : outLen n r t = 0 ↔ 2 * n * t < r := by
  have h := le_outLen_iff hr n t 1
  omega

/-- At an integer ratio `k` the target rate cancels (R82 (f)). -/
theorem outLen_of_integer_ratio {t : Nat} (ht : 0 < t) (n k : Nat) :
    outLen n (k * t) t = (2 * n + k) / (2 * k) := by
  rw [outLen, ← add_mul, ← mul_assoc, Nat.mul_div_mul_right _ _ ht]

/-- Equal rates are the integer ratio 1 (R82 (b)). -/
theorem outLen_self {r : Nat} (hr : 0 < r) (n : Nat) : outLen n r r = n := by
  have h := outLen_of_integer_ratio hr n 1
  rw [one_mul] at h
  omega

/-- Settles O36: division by the ratio `R ÷ T` is the quotient that `LEN` rounds; the examples are closed. -/
theorem lengthIsRoundedQuotient : Obligations.LengthIsRoundedQuotient := by
  refine ⟨fun n r t ht hle => ?_, by decide⟩
  have hround := outLen_eq_roundHalfUp (r := r) (by omega) n t
  refine ⟨?_, by rw [hround, roundHalfUp_eq_floor]⟩
  rw [hround, div_div_eq_mul_div, Nat.cast_mul]

/-- Settles O38, law by law. -/
theorem lawsOfLength : Obligations.LawsOfLength := by
  intro r t ht hle
  have hr : 0 < r := by omega
  refine ⟨outLen_zero r t, outLen_self hr, fun n => ⟨Nat.zero_le _, outLen_le hr hle⟩,
    fun n m h => outLen_mono h r t, ⟨fun n _ => outLen_eq_zero_iff hr n t, by decide⟩, ?integerRatio⟩
  case integerRatio =>
    rintro n k rfl
    exact outLen_of_integer_ratio ht n k

/-! ### The index before the clamp (R85) -/

/-- The unclamped index is `LEN` of the position with the two rates swapped: both round a product by a quotient
of the rates. -/
theorem rawIndex_eq_outLen (i r t : Nat) : rawIndex i r t = outLen i t r := rfl

/-- The unclamped index is the position times the exact ratio, rounded half up. -/
theorem rawIndex_eq_roundHalfUp {t : Nat} (ht : 0 < t) (i r : Nat) :
    (rawIndex i r t : ℤ) = roundHalfUp ((i : ℚ) * ((r : ℚ) / (t : ℚ))) := by
  rw [rawIndex_eq_outLen, outLen_eq_roundHalfUp ht, Nat.cast_mul, mul_div_assoc]

theorem rawIndex_zero (r t : Nat) : rawIndex 0 r t = 0 := outLen_zero t r

/-- From one position to the next the dividend grows by `2*R`, so the index grows by `floor(R ÷ T)`, and by one more
where the remainders carry (R85 (f)). -/
theorem rawIndex_succ_cases {t : Nat} (ht : 0 < t) (i r : Nat) :
    rawIndex (i + 1) r t = rawIndex i r t + r / t ∨ rawIndex (i + 1) r t = rawIndex i r t + (r / t + 1) := by
  have hsucc : 2 * (i + 1) * r + t = 2 * i * r + t + 2 * r := by ring
  rw [rawIndex, rawIndex, hsucc, Nat.add_div (by omega), Nat.mul_div_mul_left r t two_pos]
  split
  · exact .inr (add_assoc _ _ _)
  · exact .inl (add_zero _)

/-- A ratio of at least 1 makes every step at least 1 (R85 (b)). -/
theorem rawIndex_lt_succ {r t : Nat} (ht : 0 < t) (hle : t ≤ r) (i : Nat) :
    rawIndex i r t + 1 ≤ rawIndex (i + 1) r t := by
  have hratio : 0 < r / t := Nat.div_pos hle ht
  have hstep := rawIndex_succ_cases ht i r
  omega

theorem le_rawIndex {r t : Nat} (ht : 0 < t) (hle : t ≤ r) (i : Nat) : i ≤ rawIndex i r t := by
  induction i with
  | zero => exact Nat.zero_le _
  | succ i ih => exact (Nat.succ_le_succ ih).trans (rawIndex_lt_succ ht hle i)

/-- At an integer ratio `k` the index is exact, and the half added to it is lost (R85 (e)). -/
theorem rawIndex_of_integer_ratio {t : Nat} (ht : 0 < t) (i k : Nat) : rawIndex i (k * t) t = i * k := by
  have hdividend : 2 * i * (k * t) + t = (2 * (i * k) + 1) * t := by ring
  rw [rawIndex, hdividend, Nat.mul_div_mul_right _ _ ht]
  omega

/-- An exact half goes up (R85 (g)). -/
theorem rawIndex_of_exact_half {i r t m : Nat} (ht : 0 < t) (hhalf : 2 * i * r = (2 * m + 1) * t) :
    rawIndex i r t = m + 1 := by
  have hdividend : 2 * i * r + t = (m + 1) * (2 * t) := by rw [hhalf]; ring
  rw [rawIndex, hdividend, Nat.mul_div_cancel _ (by omega)]

/-! ### `SEL`: the clamp never acts (R83, R85 (c)) -/

/-- The last index is in the block (R85 (c)). Half a ratio is left behind it; at equal rates that half alone does not
exclude `2*i + 1 = 2*N`, but its parity does. -/
theorem rawIndex_lt {i n r t : Nat} (ht : 0 < t) (hle : t ≤ r) (hi : i < outLen n r t) : rawIndex i r t < n := by
  have hroom : 2 * i * r + r ≤ 2 * n * t := by
    have h := (le_outLen_iff (by omega) n t (i + 1)).1 hi
    have hexpand : (i + 1) * (2 * r) = 2 * i * r + 2 * r := by ring
    omega
  rw [rawIndex, Nat.div_lt_iff_lt_mul (by omega), mul_left_comm, ← mul_assoc]
  obtain hlt | rfl := hle.lt_or_eq
  · omega
  · have hodd : 2 * i + 1 ≤ 2 * n := by
      rw [← Nat.succ_mul] at hroom
      exact Nat.le_of_mul_le_mul_right hroom ht
    rw [← Nat.succ_mul]
    exact Nat.mul_lt_mul_of_pos_right (by omega) ht

theorem srcIndex_eq_rawIndex {i n r t : Nat} (ht : 0 < t) (hle : t ≤ r) (hi : i < outLen n r t) :
    srcIndex i n r t = rawIndex i r t := by
  have hlt := rawIndex_lt ht hle hi
  rw [srcIndex]
  omega

/-- The minimum and maximum of the integer form are the clamp of R7, as long as there is a last index. -/
theorem srcIndex_eq_clamp {n : Nat} (hn : 1 ≤ n) (i r t : Nat) :
    (srcIndex i n r t : ℤ) = clamp (rawIndex i r t) 0 ((n : ℤ) - 1) := by
  rw [clamp_eq_max_min _ _ _ (by omega), srcIndex]
  omega

/-- Settles O37: the clamp of the rounded product, which is the unclamped index; the examples are closed. -/
theorem selectionIsClampedRound : Obligations.SelectionIsClampedRound := by
  refine ⟨fun i n r t ht _ hn _ => ?_, by decide⟩
  rw [srcIndex_eq_clamp hn, rawIndex_eq_roundHalfUp ht]

/-- Settles O39: the laws of the unclamped index, carried over to `SEL` because the clamp never acts. -/
theorem lawsOfSelection : Obligations.LawsOfSelection := by
  refine ⟨fun n r t ht hle _ => ⟨rawIndex_zero r t,
    fun i => ⟨rawIndex_lt_succ ht hle i, le_rawIndex ht hle i⟩,
    fun i hi => ⟨Nat.le_sub_one_of_lt (rawIndex_lt ht hle hi), srcIndex_eq_rawIndex ht hle hi⟩,
    ?equalRates, ?integerRatio, fun i => rawIndex_succ_cases ht i r,
    fun i m => rawIndex_of_exact_half ht⟩, by decide⟩
  case equalRates =>
    rintro rfl i hi
    rw [srcIndex_eq_rawIndex ht hle hi, rawIndex_eq_outLen, outLen_self ht]
  case integerRatio =>
    rintro k rfl i hi
    rw [srcIndex_eq_rawIndex ht hle hi, rawIndex_of_integer_ratio ht]

/-! ### Widths (R86) -/

/-- The bound on the dividends of both units: a factor of 24 bits, one of 31, and the half of the divisor. -/
theorem dividend_lt {a b c : Nat} (ha : a ≤ 2 ^ 24 - 1) (hb : b ≤ 2 ^ 31 - 1) (hc : c ≤ 2 ^ 31 - 1) :
    2 * a * b + c < 2 ^ 57 := by
  have hmul : a * b ≤ (2 ^ 24 - 1) * (2 ^ 31 - 1) := Nat.mul_le_mul ha hb
  rw [mul_assoc]
  omega

/-- Settles O41: both dividends by one bound, both results because they are no larger than the block. -/
theorem resamplerWidths : Obligations.ResamplerWidths := by
  intro n r t hn ht hle hr
  have hlen : outLen n r t ≤ n := outLen_le (by omega) hle
  refine ⟨dividend_lt hn (by omega) hr, by omega, fun i hi => ⟨dividend_lt (by omega) hr (by omega), ?_⟩⟩
  have hsrc := srcIndex_le i n r t
  omega

/-! ### Only the picked samples matter (R89) -/

theorem readIn_congr {x y : List Word} {k : Nat} (h : x[k]? = y[k]?) : readIn x k = readIn y k := by
  rw [readIn, readIn, List.getD_eq_getElem?_getD, List.getD_eq_getElem?_getD, h]

/-- The output block reads its input at the picked cells and nowhere else. -/
theorem outputBlock_congr {r t : Nat} {x y : List Word} (hlen : x.length = y.length)
    (hpicked : ∀ i, i < outLen x.length r t → x[srcIndex i x.length r t]? = y[srcIndex i x.length r t]?) :
    outputBlock r t x = outputBlock r t y := by
  rw [outputBlock, outputBlock, ← hlen]
  refine List.map_congr_left fun i hi => ?_
  rw [readIn_congr (hpicked i (List.mem_range.1 hi))]

/-- `PROCESS` uses the samples of its block for the output block at the target rate and for nothing else. -/
theorem exec_process_congr {r : Word} {x y : List Word} {s : State}
    (h : ∀ t, s.trate = some t →
      outputBlock (rateOf r).toNat (rateOf t).toNat x = outputBlock (rateOf r).toNat (rateOf t).toNat y) :
    exec (.process r x) s = exec (.process r y) s := by
  cases hs : s.state with
  | error => rw [exec_of_error hs (by simp), exec_of_error hs (by simp)]
  | unconf => rw [exec_process_of_unconf hs, exec_process_of_unconf hs]
  | ready =>
    cases htarget : targetRate s with
    | none => simp only [exec, execProcess, hs, htarget]
    | some rate =>
      obtain ⟨t, htrate, _, rfl⟩ := (targetRate_eq_some s rate).1 htarget
      simp only [exec, execProcess, hs, htarget, h t htrate]

/-- Settles O19: two blocks that agree where `SEL` picks have one output block. -/
theorem unselectedSamplesHaveNoEffect : Obligations.UnselectedSamplesHaveNoEffect := by
  intro r x y s hlen hpicked
  exact exec_process_congr fun t htrate => outputBlock_congr hlen fun i => hpicked t i htrate

end Sys2Proof.Machine
end

section
/-! PROOFS. The quantizer (spec/42_quantize.md, R90 to R93, R95): what every rounding to nearest shares, the
quantizer class by class, and its steps as thresholds of the value. -/

namespace Sys2Proof.Machine

/-! ### Rounding to nearest (R6) -/

theorem le_roundHalfUp_iff (n : ℤ) (x : ℚ) : n ≤ roundHalfUp x ↔ (n : ℚ) - 1 / 2 ≤ x := by
  rw [roundHalfUp_eq_floor, Int.le_floor, sub_le_iff_le_add]

theorem roundHalfUp_mono {x y : ℚ} (h : x ≤ y) : roundHalfUp x ≤ roundHalfUp y :=
  (le_roundHalfUp_iff _ _).2 (((le_roundHalfUp_iff _ _).1 le_rfl).trans h)

/-- A rounding of the rationals to a nearest integer, whatever it does with halves. -/
def RoundsToNearest (rounding : ℚ → ℤ) : Prop := ∀ x, |(rounding x : ℚ) - x| ≤ 1 / 2

/-- Only a half has two nearest integers. -/
theorem RoundsToNearest.unique {r₁ r₂ : ℚ → ℤ} (h₁ : RoundsToNearest r₁) (h₂ : RoundsToNearest r₂) {x : ℚ}
    (hx : ∀ k : ℤ, x ≠ k + 1 / 2) : r₁ x = r₂ x := by
  wlog hlt : r₁ x < r₂ x generalizing r₁ r₂
  · rcases (not_lt.1 hlt).eq_or_lt with heq | hgt
    · exact heq.symm
    · exact (this h₂ h₁ hgt).symm
  have hlt' : (r₁ x : ℚ) + 1 ≤ r₂ x := by exact_mod_cast hlt
  have hbelow := (abs_le.1 (h₁ x)).1
  have habove := (abs_le.1 (h₂ x)).2
  exact absurd (by linarith) (hx (r₁ x))

theorem roundsToNearest_roundHalfUp : RoundsToNearest roundHalfUp := by
  intro x
  have hle := Int.floor_le (x + 1 / 2)
  have hlt := Int.lt_floor_add_one (x + 1 / 2)
  rw [roundHalfUp_eq_floor, abs_le]
  constructor <;> linarith

theorem roundsToNearest_roundHalfAway : RoundsToNearest Claims.roundHalfAway := by
  intro x
  unfold Claims.roundHalfAway
  split
  · exact roundsToNearest_roundHalfUp x
  · have hle := Int.le_ceil (x - 1 / 2)
    have hlt := Int.ceil_lt_add_one (x - 1 / 2)
    rw [abs_le]
    constructor <;> linarith

theorem roundsToNearest_roundHalfToEven : RoundsToNearest Claims.roundHalfToEven := by
  intro x
  have hle := Int.floor_le x
  have hlt := Int.lt_floor_add_one x
  have hdown : x - ⌊x⌋ ≤ 1 / 2 → |(⌊x⌋ : ℚ) - x| ≤ 1 / 2 := fun h => by
    rw [abs_le]
    constructor <;> linarith
  have hup : 1 / 2 ≤ x - ⌊x⌋ → |((⌊x⌋ + 1 : ℤ) : ℚ) - x| ≤ 1 / 2 := fun h => by
    push_cast
    rw [abs_le]
    constructor <;> linarith
  unfold Claims.roundHalfToEven
  split
  · next hbelow => exact hdown hbelow.le
  · next hnotBelow =>
    split
    · next habove => exact hup habove.le
    · next hnotAbove =>
      split
      · exact hdown (not_lt.1 hnotAbove)
      · exact hup (not_lt.1 hnotBelow)

/-- Rounding half down, by which the quantizer of a flipped sign goes. -/
theorem RoundsToNearest.neg {r : ℚ → ℤ} (h : RoundsToNearest r) : RoundsToNearest fun x => -r (-x) := by
  intro x
  have hneg := h (-x)
  rw [← abs_neg] at hneg
  push_cast
  convert hneg using 2
  ring

/-! ### The clamp (R7) -/

theorem clamp_mono {x y : ℤ} (h : x ≤ y) {lo hi : ℤ} (hb : lo ≤ hi) : clamp x lo hi ≤ clamp y lo hi := by
  rw [clamp_eq_max_min x lo hi hb, clamp_eq_max_min y lo hi hb]
  gcongr

theorem le_clamp_iff {n lo hi : ℤ} (hlo : lo < n) (hhi : n ≤ hi) (x : ℤ) : n ≤ clamp x lo hi ↔ n ≤ x := by
  rw [clamp_eq_max_min x lo hi (by omega)]
  omega

/-! ### The quantizer, class by class (R90 to R93) -/

theorem qnt_of_fin {w : Word} {v : ℚ} (h : sampleValue w = .number (.fin v)) :
    qnt w = clamp (roundHalfUp (v * 32767)) (-32768) 32767 := by
  simp [qnt, h, Extended.map, Extended.round, Extended.clamp]

theorem qnt_of_posInf {w : Word} (h : sampleValue w = .number .posInf) : qnt w = 32767 := by
  simp [qnt, h, Extended.map, Extended.round, Extended.clamp]

theorem qnt_of_negInf {w : Word} (h : sampleValue w = .number .negInf) : qnt w = -32768 := by
  simp [qnt, h, Extended.map, Extended.round, Extended.clamp]

theorem qnt_of_nan {w : Word} (h : sampleValue w = .nan) : qnt w = 0 := by
  simp [qnt, h]

/-- A value of the quantizer above the lower clip bound is reached from its lower half on. -/
theorem le_qnt_iff {w : Word} {v : ℚ} (h : sampleValue w = .number (.fin v)) {n : ℤ} (hlo : -32768 < n)
    (hhi : n ≤ 32767) : n ≤ qnt w ↔ (n : ℚ) - 1 / 2 ≤ v * 32767 := by
  rw [qnt_of_fin h, le_clamp_iff hlo hhi, le_roundHalfUp_iff]

/-- Inside the clip bounds the quantizer is the rounding alone. -/
theorem qnt_of_abs_lt {w : Word} {v : ℚ} (h : sampleValue w = .number (.fin v))
    (hv : |v * 32767| < 32767 + 1 / 2) : qnt w = roundHalfUp (v * 32767) := by
  obtain ⟨hneg, hpos⟩ := abs_lt.1 hv
  have hlo : -32767 ≤ roundHalfUp (v * 32767) := (le_roundHalfUp_iff _ _).2 (by push_cast; linarith)
  have hhi : ¬ 32768 ≤ roundHalfUp (v * 32767) := fun hge => by
    have := (le_roundHalfUp_iff _ _).1 hge
    push_cast at this
    linarith
  rw [qnt_of_fin h, clamp_of_mem _ _ _ (by omega) (by omega)]

/-- A larger value is quantized to no smaller an integer, the infinities included (R95 (b)). -/
theorem qnt_mono {w₁ w₂ : Word} {v₁ v₂ : Extended ℚ} (h₁ : sampleValue w₁ = .number v₁)
    (h₂ : sampleValue w₂ = .number v₂) (hle : v₁.le v₂) : qnt w₁ ≤ qnt w₂ := by
  cases v₁ with
  | negInf =>
    rw [qnt_of_negInf h₁]
    exact (qnt_mem w₂).1
  | fin x =>
    cases v₂ with
    | negInf => exact hle.elim
    | fin y =>
      have hxy : x ≤ y := hle
      rw [qnt_of_fin h₁, qnt_of_fin h₂]
      exact clamp_mono (roundHalfUp_mono (by linarith)) (by decide)
    | posInf =>
      rw [qnt_of_posInf h₂]
      exact (qnt_mem w₁).2
  | posInf =>
    cases v₂ with
    | negInf => exact hle.elim
    | fin y => exact hle.elim
    | posInf => rw [qnt_of_posInf h₁, qnt_of_posInf h₂]

/-- Settles O48: such a pattern is a NaN. -/
theorem nanGivesZero : Obligations.NanGivesZero := by
  intro w he hf
  rw [← sampleExponent_eq] at he
  rw [← sampleFraction_eq] at hf
  exact qnt_of_nan (sampleValue_of_nan he hf)

/-- Settles O46, by the range and the monotone steps rounding and clamp. -/
theorem quantizerMonotone : Obligations.QuantizerMonotone :=
  ⟨qnt_mem, fun _ _ _ _ => qnt_mono⟩

/-- Settles O47: the bounds are reached at their halves, 32767 from its lower one on, -32768 below that of -32767. -/
theorem largeMagnitudesClip : Obligations.LargeMagnitudesClip := by
  refine ⟨qnt_of_posInf (by decide +kernel), qnt_of_negInf (by decide +kernel), fun w v h => ?_⟩
  obtain ⟨hmin, hmax⟩ := qnt_mem w
  refine ⟨fun hv => ?top, fun hv => ?bottom⟩
  case top =>
    have htop : 32767 ≤ qnt w := (le_qnt_iff h (by decide) le_rfl).2 (by push_cast; linarith)
    exact le_antisymm hmax htop
  case bottom =>
    have hbottom : ¬ -32767 ≤ qnt w := fun hge => by
      have := (le_qnt_iff h (by decide) (by decide)).1 hge
      push_cast at this
      linarith
    omega

end Sys2Proof.Machine
end

section
/-! PROOFS. The quantizer on patterns (spec/42_quantize.md, R94 to R96): a finite sample as a whole number of units
`2^-149`, the order of the patterns, the exact halves, and the integer algorithm. -/

namespace Sys2Proof.Machine

/-! ### A finite sample as a number of units (R56) -/

/-- The magnitude of a finite sample in units of `2^-149`, the smallest subnormal. -/
def sampleUnits (w : Word) : ℕ :=
  if sampleExponent w = 0 then sampleFraction w
  else (2 ^ 23 + sampleFraction w) * 2 ^ (sampleExponent w - 1)

/-- Every finite sample is a whole number of units, with its sign. -/
theorem sampleValue_of_finite {w : Word} (he : sampleExponent w ≠ 255) :
    sampleValue w = .number (.fin ((withSign (sampleSign w) (sampleUnits w) : ℚ) / 2 ^ 149)) := by
  have hunit : (2 : ℚ) ^ (-149 : ℤ) = 1 / 2 ^ 149 := by norm_num
  by_cases h0 : sampleExponent w = 0
  · rw [sampleValue_of_exponent_zero h0, withSign_eq_pow, sampleUnits, if_pos h0, hunit, mul_one_div]
  · have hscale : (2 : ℚ) ^ ((sampleExponent w : ℤ) - 150) = 2 ^ (sampleExponent w - 1) / 2 ^ 149 := by
      have hsplit : (sampleExponent w : ℤ) - 150 = ((sampleExponent w - 1 : ℕ) : ℤ) + -149 := by omega
      rw [hsplit, zpow_add₀ two_ne_zero, zpow_natCast, hunit, mul_one_div]
    rw [sampleValue_of_normal h0 he, withSign_eq_pow, sampleUnits, if_neg h0, hscale]
    push_cast
    ring_nf

theorem exponent_ne_of_fin {w : Word} {v : ℚ} (h : sampleValue w = .number (.fin v)) :
    sampleExponent w ≠ 255 := by
  intro he
  by_cases hf : sampleFraction w = 0
  · rw [sampleValue_of_infinity he hf] at h
    split at h <;> simp at h
  · simp [sampleValue_of_nan he hf] at h

/-- A finite value is the signed number of units of its pattern. -/
theorem value_eq_of_fin {w : Word} {v : ℚ} (h : sampleValue w = .number (.fin v)) :
    v = (withSign (sampleSign w) (sampleUnits w) : ℚ) / 2 ^ 149 := by
  have hunits := sampleValue_of_finite (exponent_ne_of_fin h)
  rw [h] at hunits
  simpa using hunits

/-! ### The order of the patterns -/

theorem sampleFraction_lt (w : Word) : sampleFraction w < 2 ^ 23 := by
  rw [sampleFraction_eq]
  exact Nat.mod_lt _ (by decide)

/-- A pattern is put together from its three fields. -/
theorem toNat_eq_fields (w : Word) :
    w.toNat = (sampleSign w).toNat * 2 ^ 31 + sampleExponent w * 2 ^ 23 + sampleFraction w := by
  rw [sampleSign_toNat, sampleExponent_eq, sampleFraction_eq]
  omega

theorem toNat_mod_eq_fields (w : Word) :
    w.toNat % 2 ^ 31 = sampleExponent w * 2 ^ 23 + sampleFraction w := by
  rw [sampleExponent_eq, sampleFraction_eq]
  omega

theorem sampleUnits_lt (w : Word) : sampleUnits w < 2 ^ 23 * 2 ^ sampleExponent w := by
  have hf := sampleFraction_lt w
  unfold sampleUnits
  split
  · next h0 => simpa [h0] using hf
  · next h0 =>
    calc (2 ^ 23 + sampleFraction w) * 2 ^ (sampleExponent w - 1)
        < (2 ^ 23 * 2) * 2 ^ (sampleExponent w - 1) := by gcongr; omega
      _ = 2 ^ 23 * 2 ^ sampleExponent w := by
        rw [mul_assoc, mul_pow_sub_one h0]

theorem le_sampleUnits {w : Word} (h0 : sampleExponent w ≠ 0) :
    2 ^ 23 * 2 ^ (sampleExponent w - 1) ≤ sampleUnits w := by
  rw [sampleUnits, if_neg h0]
  gcongr
  omega

/-- The magnitude grows with the lower 31 bits: by the exponent first, then by the fraction. -/
theorem sampleUnits_strictMono {w₁ w₂ : Word} (h : w₁.toNat % 2 ^ 31 < w₂.toNat % 2 ^ 31) :
    sampleUnits w₁ < sampleUnits w₂ := by
  rw [toNat_mod_eq_fields, toNat_mod_eq_fields] at h
  have hf₁ := sampleFraction_lt w₁
  have hf₂ := sampleFraction_lt w₂
  obtain hexp | hexp : sampleExponent w₁ < sampleExponent w₂ ∨ sampleExponent w₁ = sampleExponent w₂ := by
    omega
  · calc sampleUnits w₁ < 2 ^ 23 * 2 ^ sampleExponent w₁ := sampleUnits_lt w₁
      _ ≤ 2 ^ 23 * 2 ^ (sampleExponent w₂ - 1) := by gcongr <;> omega
      _ ≤ sampleUnits w₂ := le_sampleUnits (by omega)
  · have hfrac : sampleFraction w₁ < sampleFraction w₂ := by omega
    unfold sampleUnits
    rw [hexp]
    split
    · exact hfrac
    · gcongr

theorem sampleUnits_congr {w₁ w₂ : Word} (h : w₁.toNat % 2 ^ 31 = w₂.toNat % 2 ^ 31) :
    sampleUnits w₁ = sampleUnits w₂ := by
  have hexp : sampleExponent w₁ = sampleExponent w₂ := by
    rw [sampleExponent_eq, sampleExponent_eq]
    omega
  have hfrac : sampleFraction w₁ = sampleFraction w₂ := by
    rw [sampleFraction_eq, sampleFraction_eq]
    omega
  rw [sampleUnits, sampleUnits, hexp, hfrac]

theorem sampleUnits_le_iff (w₁ w₂ : Word) :
    sampleUnits w₁ ≤ sampleUnits w₂ ↔ w₁.toNat % 2 ^ 31 ≤ w₂.toNat % 2 ^ 31 := by
  constructor
  · intro hle
    by_contra hlt
    exact absurd hle (sampleUnits_strictMono (not_le.1 hlt)).not_ge
  · intro hle
    rcases hle.eq_or_lt with heq | hlt
    · exact (sampleUnits_congr heq).le
    · exact (sampleUnits_strictMono hlt).le

theorem sampleUnits_inj {w₁ w₂ : Word} (h : sampleUnits w₁ = sampleUnits w₂) :
    w₁.toNat % 2 ^ 31 = w₂.toNat % 2 ^ 31 :=
  le_antisymm ((sampleUnits_le_iff w₁ w₂).1 h.le) ((sampleUnits_le_iff w₂ w₁).1 h.ge)

theorem sampleSign_eq_false_iff (w : Word) : sampleSign w = false ↔ w.toNat < 2 ^ 31 := by
  have h := sampleSign_toNat w
  cases hs : sampleSign w <;> simp only [hs, Bool.toNat_false, Bool.toNat_true] at h <;> simp <;> omega

theorem sampleSign_eq_true_iff (w : Word) : sampleSign w = true ↔ 2 ^ 31 ≤ w.toNat := by
  rw [← Bool.not_eq_false, sampleSign_eq_false_iff, not_lt]

@[simp] theorem withSign_false (m : ℕ) : withSign false m = m := rfl

@[simp] theorem withSign_true (m : ℕ) : withSign true m = -(m : ℤ) := rfl

/-- A signed magnitude other than zero has one sign and one magnitude. -/
theorem withSign_inj {a b : Bool} {m n : ℕ} (h : withSign a m = withSign b n) (hne : withSign a m ≠ 0) :
    a = b ∧ m = n := by
  match a, b with
  | false, false => exact ⟨rfl, by simpa using h⟩
  | true, true => exact ⟨rfl, by simpa using h⟩
  | false, true =>
    rw [withSign_false] at h hne
    rw [withSign_true] at h
    omega
  | true, false =>
    rw [withSign_true] at h hne
    rw [withSign_false] at h
    omega

/-- From `+0` to `+inf` the quantizer follows the order of the patterns. -/
theorem qnt_le_of_toNat_le {w₁ w₂ : Word} (h : w₁.toNat ≤ w₂.toNat) (hinf : w₂.toNat ≤ 0x7F800000) :
    qnt w₁ ≤ qnt w₂ := by
  have hs₁ := (sampleSign_eq_false_iff w₁).2 (by omega)
  have hs₂ := (sampleSign_eq_false_iff w₂).2 (by omega)
  obtain hw₂ | hw₂ := hinf.eq_or_lt
  · obtain rfl : w₂ = 0x7F800000 := BitVec.eq_of_toNat_eq hw₂
    exact (qnt_mem w₁).2.trans_eq (largeMagnitudesClip.1).symm
  · have he₁ : sampleExponent w₁ ≠ 255 := by rw [sampleExponent_eq]; omega
    have he₂ : sampleExponent w₂ ≠ 255 := by rw [sampleExponent_eq]; omega
    have hunits := (sampleUnits_le_iff w₁ w₂).2 (by omega)
    refine qnt_mono (sampleValue_of_finite he₁) (sampleValue_of_finite he₂) ?_
    simp only [hs₁, hs₂, withSign_false, Extended.le]
    gcongr

/-- From `-0` to `-inf` the quantizer goes against the order of the patterns. -/
theorem qnt_le_of_le_toNat {w₁ w₂ : Word} (hzero : 0x80000000 ≤ w₁.toNat) (h : w₁.toNat ≤ w₂.toNat)
    (hinf : w₂.toNat ≤ 0xFF800000) : qnt w₂ ≤ qnt w₁ := by
  have hs₁ := (sampleSign_eq_true_iff w₁).2 (by omega)
  have hs₂ := (sampleSign_eq_true_iff w₂).2 (by omega)
  obtain hw₂ | hw₂ := hinf.eq_or_lt
  · obtain rfl : w₂ = 0xFF800000 := BitVec.eq_of_toNat_eq hw₂
    exact (largeMagnitudesClip.2.1).trans_le (qnt_mem w₁).1
  · have he₁ : sampleExponent w₁ ≠ 255 := by rw [sampleExponent_eq]; omega
    have he₂ : sampleExponent w₂ ≠ 255 := by rw [sampleExponent_eq]; omega
    have hunits := (sampleUnits_le_iff w₁ w₂).2 (by omega)
    refine qnt_mono (sampleValue_of_finite he₂) (sampleValue_of_finite he₁) ?_
    simp only [hs₁, hs₂, withSign_true, Extended.le]
    gcongr

/-- Settles O50: each threshold and the pattern before it are closed, and the order of the patterns does the rest. -/
theorem clipThresholdPatterns : Obligations.ClipThresholdPatterns := by
  refine ⟨by decide +kernel, by decide +kernel, fun w hinf => ?positive, fun w hzero hinf => ?negative⟩
  case positive =>
    have hat : qnt 0x3F7FFF00 = 32767 := by decide +kernel
    have hbefore : qnt 0x3F7FFEFF = 32766 := by decide +kernel
    obtain hle | hlt := le_or_gt 0x3F7FFF00 w.toNat
    · have hmono : qnt 0x3F7FFF00 ≤ qnt w := qnt_le_of_toNat_le hle hinf
      have hmax := (qnt_mem w).2
      omega
    · have hmono : qnt w ≤ qnt 0x3F7FFEFF := qnt_le_of_toNat_le (Nat.le_of_lt_succ hlt) (by decide)
      omega
  case negative =>
    have hat : qnt 0xBF800081 = -32768 := by decide +kernel
    have hbefore : qnt 0xBF800080 = -32767 := by decide +kernel
    obtain hle | hlt := le_or_gt 0xBF800081 w.toNat
    · have hmono : qnt w ≤ qnt 0xBF800081 := qnt_le_of_le_toNat (by decide) hle hinf
      have hmin := (qnt_mem w).1
      omega
    · have hmono : qnt 0xBF800080 ≤ qnt w := qnt_le_of_le_toNat hzero (Nat.le_of_lt_succ hlt) (by decide)
      omega

/-! ### Exact halves (R95 (d)) -/

/-- The factor 32767 is odd, so it has no part in the power of two. -/
theorem odd_multiple_of_product {m k : ℤ} {n : ℕ} (h : m * 32767 = 2 ^ n * (2 * k + 1)) :
    ∃ j : ℤ, m = 2 ^ n * (2 * j + 1) := by
  have hcoprime : IsCoprime ((2 : ℤ) ^ n) 32767 := IsCoprime.pow_left ⟨-16383, 1, by norm_num⟩
  obtain ⟨c, rfl⟩ : (2 : ℤ) ^ n ∣ m := hcoprime.dvd_of_dvd_mul_right ⟨_, h⟩
  rw [mul_assoc] at h
  have hodd : Odd (c * 32767) := ⟨k, mul_left_cancel₀ (pow_ne_zero n two_ne_zero) h⟩
  obtain ⟨j, rfl⟩ := (Int.odd_mul.1 hodd).1
  exact ⟨j, rfl⟩

/-- A number of units is a dyadic rational and 32767 is odd, so only an odd multiple of `1/2` has a product half way
between integers. -/
theorem exact_half_iff {w : Word} {v : ℚ} (h : sampleValue w = .number (.fin v)) :
    (∃ k : ℤ, v * 32767 = k + 1 / 2) ↔ ∃ j : ℤ, v = (2 * j + 1) / 2 := by
  constructor
  · rintro ⟨k, hk⟩
    have hv := value_eq_of_fin h
    have hprod : (withSign (sampleSign w) (sampleUnits w) : ℚ) * 32767 = 2 ^ 148 * (2 * k + 1) := by
      rw [hv] at hk
      field_simp at hk
      linarith
    obtain ⟨j, hj⟩ := odd_multiple_of_product (n := 148) (by exact_mod_cast hprod)
    refine ⟨j, ?_⟩
    rw [hv, hj]
    push_cast
    ring
  · rintro ⟨j, rfl⟩
    refine ⟨32767 * j + 16383, ?_⟩
    push_cast
    ring

/-- A value other than zero has one pattern. -/
theorem eq_of_sampleValue_eq {w₁ w₂ : Word} {v : ℚ} (h₁ : sampleValue w₁ = .number (.fin v))
    (h₂ : sampleValue w₂ = .number (.fin v)) (hv : v ≠ 0) : w₁ = w₂ := by
  have hv₁ := value_eq_of_fin h₁
  have hunits : withSign (sampleSign w₁) (sampleUnits w₁) = withSign (sampleSign w₂) (sampleUnits w₂) := by
    have heq := hv₁.symm.trans (value_eq_of_fin h₂)
    field_simp at heq
    exact_mod_cast heq
  have hne : withSign (sampleSign w₁) (sampleUnits w₁) ≠ 0 := fun hzero => hv (by simp [hv₁, hzero])
  obtain ⟨hsign, hmag⟩ := withSign_inj hunits hne
  have hlow := sampleUnits_inj hmag
  have htop := congrArg Bool.toNat hsign
  rw [sampleSign_toNat, sampleSign_toNat] at htop
  exact BitVec.eq_of_toNat_eq (by omega)

theorem sampleValue_half : sampleValue 0x3F000000 = .number (.fin (1 / 2)) := by decide +kernel

theorem sampleValue_neg_half : sampleValue 0xBF000000 = .number (.fin (-(1 / 2))) := by decide +kernel

/-- A product half way between integers is that of `+0.5` or `-0.5`, or it lies far beyond the clip bounds. -/
theorem exact_half_cases {w : Word} {v : ℚ} (h : sampleValue w = .number (.fin v))
    (hhalf : ∃ k : ℤ, v * 32767 = k + 1 / 2) :
    w = 0x3F000000 ∨ w = 0xBF000000 ∨ 32768 ≤ v * 32767 ∨ v * 32767 ≤ -32769 := by
  obtain ⟨j, rfl⟩ := (exact_half_iff h).1 hhalf
  obtain rfl | rfl | hj | hj : j = 0 ∨ j = -1 ∨ 1 ≤ j ∨ j ≤ -2 := by omega
  · norm_num at h
    exact .inl (eq_of_sampleValue_eq h sampleValue_half (by norm_num))
  · norm_num at h
    exact .inr (.inl (eq_of_sampleValue_eq h sampleValue_neg_half (by norm_num)))
  · have hj' : (1 : ℚ) ≤ j := by exact_mod_cast hj
    exact .inr (.inr (.inl (by linarith)))
  · have hj' : (j : ℚ) ≤ -2 := by exact_mod_cast hj
    exact .inr (.inr (.inr (by linarith)))

/-! ### Other rounding conventions (R95 (d)) -/

theorem RoundsToNearest.clamp_of_ge {r : ℚ → ℤ} (h : RoundsToNearest r) {x : ℚ} (hx : 32768 ≤ x) :
    clamp (r x) (-32768) 32767 = 32767 := by
  have hdist := (abs_le.1 (h x)).1
  have hround : (32767 : ℚ) ≤ r x := by linarith
  have hround' : 32767 ≤ r x := by exact_mod_cast hround
  rw [clamp_eq_max_min _ _ _ (by decide)]
  omega

theorem RoundsToNearest.clamp_of_le {r : ℚ → ℤ} (h : RoundsToNearest r) {x : ℚ} (hx : x ≤ -32769) :
    clamp (r x) (-32768) 32767 = -32768 := by
  have hdist := (abs_le.1 (h x)).2
  have hround : (r x : ℚ) ≤ (-32768 : ℤ) := by
    push_cast
    linarith
  have hround' : r x ≤ -32768 := by exact_mod_cast hround
  rw [clamp_eq_max_min _ _ _ (by decide)]
  omega

theorem quantizeWith_of_fin (rounding : ℚ → ℤ) {w : Word} {v : ℚ} (h : sampleValue w = .number (.fin v)) :
    Claims.quantizeWith rounding w = clamp (rounding (v * 32767)) (-32768) 32767 := by
  simp [Claims.quantizeWith, h, Extended.map, Extended.clamp]

/-- Without a finite value nothing is rounded. -/
theorem quantizeWith_eq_qnt_of_not_fin (rounding : ℚ → ℤ) {w : Word}
    (h : ∀ v, sampleValue w ≠ .number (.fin v)) : Claims.quantizeWith rounding w = qnt w := by
  cases hw : sampleValue w with
  | nan => simp [Claims.quantizeWith, hw, qnt_of_nan hw]
  | number x =>
    cases x with
    | negInf => simp [Claims.quantizeWith, hw, qnt_of_negInf hw, Extended.map]
    | fin v => exact absurd hw (h v)
    | posInf => simp [Claims.quantizeWith, hw, qnt_of_posInf hw, Extended.map]

/-- Any rounding to nearest gives the quantizer's integer but for the two halves inside the clip bounds. -/
theorem RoundsToNearest.quantizeWith_eq {r : ℚ → ℤ} (hr : RoundsToNearest r) {w : Word}
    (hpos : w ≠ 0x3F000000) (hneg : w ≠ 0xBF000000) : Claims.quantizeWith r w = qnt w := by
  by_cases hfin : ∃ v, sampleValue w = .number (.fin v)
  · obtain ⟨v, h⟩ := hfin
    rw [quantizeWith_of_fin r h, qnt_of_fin h]
    by_cases hhalf : ∃ k : ℤ, v * 32767 = k + 1 / 2
    · obtain hw | hw | habove | hbelow := exact_half_cases h hhalf
      · exact absurd hw hpos
      · exact absurd hw hneg
      · rw [hr.clamp_of_ge habove, roundsToNearest_roundHalfUp.clamp_of_ge habove]
      · rw [hr.clamp_of_le hbelow, roundsToNearest_roundHalfUp.clamp_of_le hbelow]
    · rw [hr.unique roundsToNearest_roundHalfUp (not_exists.1 hhalf)]
  · exact quantizeWith_eq_qnt_of_not_fin r (not_exists.1 hfin)

/-- A rounding to nearest that takes `16383.5` up and `-16383.5` down differs from the quantizer at `-0.5` alone. -/
theorem RoundsToNearest.quantizeWith_ne_iff {r : ℚ → ℤ} (hr : RoundsToNearest r)
    (hpos : Claims.quantizeWith r 0x3F000000 = 16384) (hneg : Claims.quantizeWith r 0xBF000000 = -16384)
    (w : Word) : Claims.quantizeWith r w ≠ qnt w ↔ w = 0xBF000000 := by
  constructor
  · intro hne
    by_contra hw
    by_cases hw' : w = 0x3F000000
    · rw [hw', hpos] at hne
      exact hne (by decide +kernel)
    · exact hne (hr.quantizeWith_eq hw' hw)
  · rintro rfl
    rw [hneg]
    decide +kernel

theorem quantizeWith_half (rounding : ℚ → ℤ) :
    Claims.quantizeWith rounding 0x3F000000 = clamp (rounding (32767 / 2)) (-32768) 32767 := by
  rw [quantizeWith_of_fin rounding sampleValue_half]
  norm_num

theorem quantizeWith_neg_half (rounding : ℚ → ℤ) :
    Claims.quantizeWith rounding 0xBF000000 = clamp (rounding (-32767 / 2)) (-32768) 32767 := by
  rw [quantizeWith_of_fin rounding sampleValue_neg_half]
  norm_num

/-- Settles O51: the halves are those of `exact_half_iff`, and both conventions round to nearest with the larger
magnitude at `+0.5` and `-0.5`. -/
theorem roundingConventionMattersOnce : Obligations.RoundingConventionMattersOnce := by
  have haway : Claims.quantizeWith Claims.roundHalfAway 0xBF000000 = -16384 := by
    rw [quantizeWith_neg_half]
    decide +kernel
  have heven : Claims.quantizeWith Claims.roundHalfToEven 0xBF000000 = -16384 := by
    rw [quantizeWith_neg_half]
    decide +kernel
  have haway' : Claims.quantizeWith Claims.roundHalfAway 0x3F000000 = 16384 := by
    rw [quantizeWith_half]
    decide +kernel
  have heven' : Claims.quantizeWith Claims.roundHalfToEven 0x3F000000 = 16384 := by
    rw [quantizeWith_half]
    decide +kernel
  exact ⟨fun _ _ => exact_half_iff, by decide +kernel, by decide +kernel,
    roundsToNearest_roundHalfAway.quantizeWith_ne_iff haway' haway,
    roundsToNearest_roundHalfToEven.quantizeWith_ne_iff heven' heven, haway, heven⟩

/-! ### The flipped sign (R95 (f)) -/

theorem sampleSign_flip (w : Word) : sampleSign (w ^^^ 0x80000000) = !sampleSign w := by
  simp [sampleSign]

theorem sampleExponent_flip (w : Word) : sampleExponent (w ^^^ 0x80000000) = sampleExponent w := by
  have hbit : (0x80000000 : Word).extractLsb' 23 8 = 0 := by decide
  rw [sampleExponent, sampleExponent, BitVec.extractLsb'_xor, hbit]
  simp

theorem sampleFraction_flip (w : Word) : sampleFraction (w ^^^ 0x80000000) = sampleFraction w := by
  have hbit : (0x80000000 : Word).extractLsb' 0 23 = 0 := by decide
  rw [sampleFraction, sampleFraction, BitVec.extractLsb'_xor, hbit]
  simp

theorem withSign_not (negative : Bool) (m : ℕ) : withSign (!negative) m = -withSign negative m := by
  cases negative
  · rfl
  · exact (neg_neg _).symm

/-- The sign bit negates a finite value. -/
theorem sampleValue_flip {w : Word} {v : ℚ} (h : sampleValue w = .number (.fin v)) :
    sampleValue (w ^^^ 0x80000000) = .number (.fin (-v)) := by
  have he : sampleExponent (w ^^^ 0x80000000) ≠ 255 := by
    rw [sampleExponent_flip]
    exact exponent_ne_of_fin h
  have hunits : sampleUnits (w ^^^ 0x80000000) = sampleUnits w := by
    rw [sampleUnits, sampleUnits, sampleExponent_flip, sampleFraction_flip]
  rw [sampleValue_of_finite he, value_eq_of_fin h, sampleSign_flip, withSign_not, hunits]
  push_cast
  rw [neg_div]

/-- Settles O52: inside the clip bounds both results are rounded values, and rounding half up is odd but at halves. -/
theorem quantizerOddSymmetry : Obligations.QuantizerOddSymmetry := by
  refine ⟨fun w v h hv => ⟨fun hodd => ?exceptions, fun ⟨hpos, hneg⟩ => ?odd⟩, by decide +kernel, by decide +kernel⟩
  case exceptions =>
    have hpos : qnt (0x3F000000 ^^^ 0x80000000) ≠ -qnt 0x3F000000 := by decide +kernel
    have hneg : qnt (0xBF000000 ^^^ 0x80000000) ≠ -qnt 0xBF000000 := by decide +kernel
    exact ⟨fun hw => hpos (hw ▸ hodd), fun hw => hneg (hw ▸ hodd)⟩
  case odd =>
    have hhalf : ∀ k : ℤ, v * 32767 ≠ k + 1 / 2 := fun k hk => by
      obtain ⟨hlo, hhi⟩ := abs_lt.1 hv
      obtain hw | hw | habove | hbelow := exact_half_cases h ⟨k, hk⟩
      · exact hpos hw
      · exact hneg hw
      · linarith
      · linarith
    have hv' : |-v * 32767| < 32767 + 1 / 2 := by rwa [neg_mul, abs_neg]
    have hround := roundsToNearest_roundHalfUp.unique roundsToNearest_roundHalfUp.neg hhalf
    rw [qnt_of_abs_lt h hv, qnt_of_abs_lt (sampleValue_flip h) hv', neg_mul, hround, neg_neg]

/-! ### Small and large exponents (R94, R96) -/

/-- Below `2^-16`, zeros and subnormals included, the result is 0: so it is at the ends of that range. -/
theorem qnt_of_exponent_le {w : Word} (he : sampleExponent w ≤ 110) : qnt w = 0 := by
  have hfields := toNat_eq_fields w
  have hf := sampleFraction_lt w
  cases hs : sampleSign w <;> rw [hs] at hfields
  case false =>
    rw [Bool.toNat_false] at hfields
    have hfrom : qnt 0x00000000 = 0 := by decide +kernel
    have hto : qnt 0x377FFFFF = 0 := by decide +kernel
    have hge : qnt 0x00000000 ≤ qnt w := qnt_le_of_toNat_le (Nat.zero_le _) (by omega)
    have hle : qnt w ≤ qnt 0x377FFFFF :=
      qnt_le_of_toNat_le (show w.toNat ≤ 0x377FFFFF by omega) (by decide)
    omega
  case true =>
    rw [Bool.toNat_true] at hfields
    have hfrom : qnt 0x80000000 = 0 := by decide +kernel
    have hto : qnt 0xB77FFFFF = 0 := by decide +kernel
    have hle : qnt w ≤ qnt 0x80000000 :=
      qnt_le_of_le_toNat (by decide) (show 0x80000000 ≤ w.toNat by omega) (by omega)
    have hge : qnt 0xB77FFFFF ≤ qnt w :=
      qnt_le_of_le_toNat (by omega) (show w.toNat ≤ 0xB77FFFFF by omega) (by decide)
    omega

/-- From a magnitude of 2 on, infinities included, the clip threshold is passed. -/
theorem qnt_of_exponent_ge {w : Word} (he : 128 ≤ sampleExponent w)
    (hnan : ¬(sampleExponent w = 255 ∧ sampleFraction w ≠ 0)) :
    qnt w = if sampleSign w then -32768 else 32767 := by
  have hfields := toNat_eq_fields w
  have hf := sampleFraction_lt w
  have hexp : sampleExponent w ≤ 255 := by
    rw [sampleExponent_eq]
    omega
  obtain ⟨-, -, hpositive, hnegative⟩ := clipThresholdPatterns
  cases hs : sampleSign w <;> rw [hs] at hfields
  case false =>
    rw [Bool.toNat_false] at hfields
    exact (hpositive w (by omega)).2 (by omega)
  case true =>
    rw [Bool.toNat_true] at hfields
    exact (hnegative w (by omega) (by omega)).2 (by omega)

/-- Settles O49: the interval by the thresholds of 0 and 1, its lower end by the exact halves, and each threshold
pattern by the order of the patterns. -/
theorem smallMagnitudesGiveZero : Obligations.SmallMagnitudesGiveZero := by
  have hbefore : qnt 0x37800100 = 0 := by decide +kernel
  have hbefore' : qnt 0xB7800100 = 0 := by decide +kernel
  refine ⟨by decide +kernel, by decide +kernel, fun w he => ?subnormal, fun w v h => ⟨?interval, ?lowerEnd⟩,
    ⟨by decide +kernel, hbefore, fun w hw hone => ?first⟩,
    ⟨by decide +kernel, hbefore', fun w hw hone => ?firstNegative⟩⟩
  case subnormal =>
    rw [← sampleExponent_eq] at he
    exact qnt_of_exponent_le (by omega)
  case interval =>
    have hzero := le_qnt_iff (n := 0) h (by decide) (by decide)
    have hone := le_qnt_iff (n := 1) h (by decide) (by decide)
    norm_num at hzero hone
    constructor
    · intro hq
      refine ⟨by linarith [hzero.1 hq.ge], ?_⟩
      by_contra hge
      have := hone.2 (by linarith)
      omega
    · rintro ⟨hlo, hhi⟩
      have hge := hzero.2 (by linarith)
      have hlt : ¬ 1 ≤ qnt w := fun hge => by linarith [hone.1 hge]
      omega
  case lowerEnd =>
    intro heq
    obtain ⟨j, hj⟩ := (exact_half_iff h).1 ⟨-1, by rw [heq]; norm_num⟩
    have hodd : (2 * (j : ℚ) + 1) * 32767 = -1 := by
      rw [hj] at heq
      linarith
    have hodd' : (2 * j + 1) * 32767 = -1 := by exact_mod_cast hodd
    omega
  case first =>
    by_contra hlt
    have hle : qnt w ≤ qnt 0x37800100 := qnt_le_of_toNat_le (show w.toNat ≤ 0x37800100 by omega) (by decide)
    omega
  case firstNegative =>
    by_contra hlt
    have hge : qnt 0xB7800100 ≤ qnt w :=
      qnt_le_of_le_toNat (by omega) (show w.toNat ≤ 0xB7800100 by omega) (by decide)
    omega

/-! ### The integer algorithm (R96) -/

/-- Adding half of the divisor and shifting right is rounding half up. -/
theorem roundHalfUp_div_two_pow (a : ℤ) (d : ℕ) :
    roundHalfUp ((a : ℚ) / 2 ^ (d + 1)) = (a + 2 ^ d) / 2 ^ (d + 1) := by
  have h := roundHalfUp_div a (2 ^ (d + 1)) (by positivity)
  have hnum : 2 * a + 2 ^ (d + 1) = 2 * (a + 2 ^ d) := by ring
  push_cast at h
  rwa [hnum, Int.mul_ediv_mul_of_pos _ _ two_pos] at h

/-- Between the two exponent bounds the product is a fraction over `2^(150 - e)`, rounded by one shift. -/
theorem roundHalfUp_of_exponent_mem {w : Word} {v : ℚ} (h : sampleValue w = .number (.fin v))
    (hlo : 110 < sampleExponent w) (hhi : sampleExponent w < 128) :
    roundHalfUp (v * 32767) =
      (withSign (sampleSign w) ((2 ^ 23 + sampleFraction w) * 32767) + 2 ^ (150 - sampleExponent w - 1)) /
        2 ^ (150 - sampleExponent w) := by
  obtain ⟨d, hd⟩ : ∃ d, 150 - sampleExponent w = d + 1 := ⟨149 - sampleExponent w, by omega⟩
  have hv : v * 32767 =
      ((withSign (sampleSign w) ((2 ^ 23 + sampleFraction w) * 32767) : ℤ) : ℚ) / 2 ^ (d + 1) := by
    have hexp : (sampleExponent w : ℤ) - 150 = -((d + 1 : ℕ) : ℤ) := by omega
    rw [sampleValue_of_normal (by omega) (by omega), SampleValue.number.injEq, Extended.fin.injEq] at h
    rw [← h, withSign_eq_pow, hexp, zpow_neg, zpow_natCast]
    push_cast
    ring
  rw [hv, hd, Nat.add_sub_cancel, roundHalfUp_div_two_pow]

/-- Settles O45, by the branches of the algorithm. -/
theorem quantizerEqualsIntegerAlgorithm : Obligations.QuantizerEqualsIntegerAlgorithm := by
  intro w
  unfold qntInteger
  dsimp only
  split
  · next hnan => exact (qnt_of_nan (sampleValue_of_nan hnan.1 hnan.2)).symm
  · next hnan =>
    split
    · next hge => exact (qnt_of_exponent_ge hge hnan).symm
    · next hlt =>
      split
      · next hle => exact (qnt_of_exponent_le hle).symm
      · next hgt =>
        have h := sampleValue_of_finite (w := w) (by omega)
        rw [qnt_of_fin h, roundHalfUp_of_exponent_mem h (by omega) (by omega)]
        simp [withSign]

end Sys2Proof.Machine
end

section
/-! PROOFS. The command `PROCESS` (spec/43_process.md, R100 to R109): where the emitted block is empty, the block at
equal rates and at rates with a common factor, and the checks in their order. -/

namespace Sys2Proof.Machine

/-! ### The emission that ends a transform (R100, R104) -/

theorem emitBlock_eq_ite (out : List OutWord) (s : State) :
    emitBlock out s =
      if out.length = 0 ∧ Config.emitEmpty = false then s else { s with outp := s.outp ++ [blkPacket out] } := by
  have hemits : (0 < out.length ∨ Config.emitEmpty = true) ↔ ¬ (out.length = 0 ∧ Config.emitEmpty = false) := by
    rw [not_and_or, Nat.pos_iff_ne_zero, Bool.not_eq_false]
  simp only [emitBlock, emit, hemits, ite_not]

theorem emitBlock_nil (s : State) :
    emitBlock [] s = if Config.emitEmpty = true then { s with outp := s.outp ++ [[0x1000, 0x0000]] } else s := by
  rw [emitBlock_eq_ite]
  cases Config.emitEmpty <;> rfl

/-! ### The output block at special rates (R101, R104, R107) -/

theorem outputBlock_eq_nil_iff {r t : Nat} {x : List Word} :
    outputBlock r t x = [] ↔ outLen x.length r t = 0 := by
  rw [← List.length_eq_zero_iff, length_outputBlock]

/-- A common factor of the rates cancels in `LEN`. -/
theorem outLen_mul_left {c : Nat} (hc : 0 < c) (n r t : Nat) : outLen n (c * r) (c * t) = outLen n r t := by
  have hdividend : 2 * n * (c * t) + c * r = c * (2 * n * t + r) := by ring
  rw [outLen, outLen, hdividend, mul_left_comm 2 c r, Nat.mul_div_mul_left _ _ hc]

/-- A common factor of the rates cancels in `SEL`, whose index is `LEN` with the rates swapped. -/
theorem srcIndex_mul_left {c : Nat} (hc : 0 < c) (i n r t : Nat) :
    srcIndex i n (c * r) (c * t) = srcIndex i n r t := by
  rw [srcIndex, srcIndex, rawIndex_eq_outLen, rawIndex_eq_outLen, outLen_mul_left hc]

theorem outputBlock_mul_left {c : Nat} (hc : 0 < c) (r t : Nat) (x : List Word) :
    outputBlock (c * r) (c * t) x = outputBlock r t x := by
  simp only [outputBlock, outLen_mul_left hc, srcIndex_mul_left hc]

/-- At equal rates position `i` picks cell `i`. -/
theorem srcIndex_self {i n r : Nat} (hr : 0 < r) (hi : i < n) : srcIndex i n r r = i := by
  rw [srcIndex_eq_rawIndex hr le_rfl (by rwa [outLen_self hr]), rawIndex_eq_outLen, outLen_self hr]

theorem outputBlock_self {r : Nat} (hr : 0 < r) (x : List Word) :
    outputBlock r r x = x.map fun w => toI16 (qnt w) := by
  refine List.ext_getElem (by rw [length_outputBlock, outLen_self hr, List.length_map]) fun i _ hi => ?_
  have hx : i < x.length := by rwa [List.length_map] at hi
  simp [outputBlock, srcIndex_self hr hx, readIn, hx]

/-! ### `PROCESS` in `READY` at a supported rate -/

theorem exec_process_eq_ite {s : State} (hs : s.state = .ready) {r t : Word} (htrate : s.trate = some t)
    (ht : 1 ≤ rateOf t) (hr : rateOf t ≤ rateOf r) (x : List Word) :
    exec (.process r x) s =
      .next (if outLen x.length (rateOf r).toNat (rateOf t).toNat = 0 ∧ Config.emitEmpty = false then s
        else { s with outp := s.outp ++ [blkPacket (outputBlock (rateOf r).toNat (rateOf t).toNat x)] }) := by
  rw [exec_process_of_rate_le hs htrate ht hr, emitBlock_eq_ite, length_outputBlock]

theorem exec_process_of_outLen_eq_zero {s : State} (hs : s.state = .ready) {r t : Word} (htrate : s.trate = some t)
    (ht : 1 ≤ rateOf t) (hr : rateOf t ≤ rateOf r) {x : List Word}
    (hzero : outLen x.length (rateOf r).toNat (rateOf t).toNat = 0) :
    exec (.process r x) s =
      .next (if Config.emitEmpty = true then { s with outp := s.outp ++ [[0x1000, 0x0000]] } else s) := by
  rw [exec_process_of_rate_le hs htrate ht hr, outputBlock_eq_nil_iff.2 hzero, emitBlock_nil]

/-- Settles O13: the closed formulas are `LEN` and `SEL` written out, and a common factor cancels in both. -/
theorem processEmitsTransformedBlock : Obligations.ProcessEmitsTransformedBlock :=
  ⟨fun _ _ x _ hs htrate ht hr => exec_process_eq_ite hs htrate ht hr x,
    fun _ R T x hc _ _ => outputBlock_mul_left hc R T x⟩

/-- Settles O14: the two sides of the comparison; a rate of zero or below is on the failing side. -/
theorem rateCheckExactly : Obligations.RateCheckExactly := by
  intro r t x s hs htrate ht
  refine ⟨fun hr => exec_process_of_rate_lt hs htrate ht hr x,
    fun hr => ⟨_, exec_process_of_rate_le hs htrate ht hr x, ?_, ?_, ?_⟩, fun hr => by omega⟩
  · rw [emitBlock_state, hs]
  · rw [emitBlock_cause]
  · rw [emitBlock_trate, htrate]

/-- Settles O15: the checks in their order, each with the effect of its failure. -/
theorem processChecksInOrder : Obligations.ProcessChecksInOrder := by
  refine ⟨fun r x s hs => exec_of_error hs (by simp), fun r x s hs => exec_process_of_unconf hs r x,
    fun r t x s hs htrate ht => ⟨fun hr => ?rateFails, fun hr => ?transform⟩⟩
  case rateFails =>
    exact ⟨raiseError .cfgRates s, rfl, rfl, htrate, rfl, rfl, exec_process_of_rate_lt hs htrate ht hr⟩
  case transform =>
    refine ⟨_, exec_process_of_rate_le hs htrate ht hr x, ?_, emitBlock_cause _ s, ?_, emitBlock_cmd _ s, ?_⟩
    · rw [emitBlock_state, hs]
    · rw [emitBlock_trate, htrate]
    · rw [emitBlock_outp, length_outputBlock]

/-- Settles O16: at equal rates the block has the length of the input and picks every cell for itself. -/
theorem equalRatesQuantizeOnly : Obligations.EqualRatesQuantizeOnly := by
  intro t x s hs htrate ht
  have hpos : 0 < t.toInt.toNat := by omega
  rw [exec_process_eq_ite hs htrate ht le_rfl, outLen_self hpos, outputBlock_self hpos]
  simp only [List.length_eq_zero_iff]

/-- Settles O17: an empty input is a case of an empty output, behind the same rate check. -/
theorem emptyInputIsNoError : Obligations.EmptyInputIsNoError := fun _ _ _ hs htrate ht =>
  ⟨fun hr => exec_process_of_outLen_eq_zero hs htrate ht hr (outLen_zero _ _),
    fun hr => exec_process_of_rate_lt hs htrate ht hr []⟩

/-- Settles O18: `NOUT` is 0 where `2*NIN*TRATE < r` (R82), which an empty input always meets. -/
theorem zeroLengthOutput : Obligations.ZeroLengthOutput := by
  intro r t x s hs htrate ht hr
  refine ⟨?_, exec_process_of_outLen_eq_zero hs htrate ht hr⟩
  have hshort : outLen x.length r.toInt.toNat t.toInt.toNat = 0 ↔ 2 * (x.length : ℤ) * t.toInt < r.toInt := by
    rw [outLen_eq_zero_iff (by omega), ← Int.ofNat_lt]
    push_cast
    rw [Int.toNat_of_nonneg (by omega), Int.toNat_of_nonneg (by omega)]
  refine ⟨fun h => .inr (hshort.1 h), ?_⟩
  rintro (rfl | h)
  · exact outLen_zero _ _
  · exact hshort.2 h

end Sys2Proof.Machine
end

section
/-! PROOFS. Errors (spec/60_exceptions.md, R111 to R119, R126): entry into `ERROR`, the order of the checks that
lead there, what `ERROR` drops, and the ways out of it. -/

namespace Sys2Proof.Machine

/-! ### Error entry (R111, R113) -/

/-- The codes of the four causes that are raised (R111). -/
theorem Cause.code_bounds {c : Cause} (hc : c ≠ .none) : 1 ≤ c.code.toNat ∧ c.code.toNat ≤ 4 := by
  cases c with
  | none => exact absurd rfl hc
  | cfgTarget => decide
  | cfgRates => decide
  | protocol => decide
  | illegal => decide

/-- `ERROR` is entered by `raiseError` alone, with a cause, in the state from which the next event is taken. -/
theorem step_enters_error {s s' : State} (h : step s = .next s') (hs : s.state ≠ .error)
    (hs' : s'.state = .error) :
    ∃ c, c ≠ .none ∧ s' = raiseError c { s with cmd := s.cmd.tail } := by
  have hports := emitsAtMostOne_step h
  obtain kept | ⟨_, _, rfl⟩ | ⟨_, _, _, _, _, _, _, rfl⟩ | ⟨_, rest, c, hc, rfl⟩ := step_effect_cases h
  · exact absurd (kept.state.symm.trans hs') hs
  · cases hs'
  · cases hs'
  · have hrest : rest = s.cmd.tail := hports.cmd
    exact ⟨c, hc, by rw [hrest]⟩

/-- Settles O20: the fields that `raiseError` leaves, and the code of its cause. -/
theorem errorEntryIsWholeEffect : Obligations.ErrorEntryIsWholeEffect := by
  intro s s' h hs hs'
  obtain ⟨c, hc, rfl⟩ := step_enters_error h hs hs'
  obtain ⟨hlo, hhi⟩ := Cause.code_bounds hc
  exact ⟨hlo, hhi, rfl, rfl, rfl⟩

/-! ### In `ERROR` (R117, R119, R126) -/

/-- In `ERROR` a packet that is no well-formed `STOP` is taken and dropped, whether it is a command or not. -/
theorem step_of_error {s : State} {p : List Word} {rest : List Event} (hs : s.state = .error)
    (hcmd : s.cmd = .packet p :: rest) (hp : decode p ≠ .command .stop) :
    step s = .next { s with cmd := rest } := by
  cases hdec : decode p with
  | command i =>
    have hi : i ≠ .stop := fun heq => hp (by rw [hdec, heq])
    rw [step_of_command hcmd hdec, exec_of_error (s := { s with cmd := rest }) hs hi]
  | illegal why =>
    rw [step_of_illegal hcmd hdec, illegalPacket_of_error (s := { s with cmd := rest }) hs]

/-- Settles O22, by induction on the number of steps; past the last packet RQ is idle. -/
theorem errorStateStaysSilent : Obligations.ErrorStateStaysSilent := by
  intro k
  induction k with
  | zero => exact fun s _ _ => run_zero s
  | succ k ih =>
    intro s hs hdropped
    cases hcmd : s.cmd with
    | nil =>
      rw [run_succ_of_next (step_of_nil hcmd), ih s hs (by simp [hcmd]), hcmd, List.drop_nil, List.drop_nil]
    | cons e rest =>
      rw [hcmd, List.take_succ_cons, List.forall_mem_cons] at hdropped
      obtain ⟨⟨p, rfl, hp⟩, hlater⟩ := hdropped
      rw [run_succ_of_next (step_of_error hs hcmd hp), List.drop_succ_cons]
      exact ih { s with cmd := rest } hs hlater

/-- Settles O23: `READY` is entered from `UNCONF` only, `UNCONF` by a reset or a `STOP` only, and a step that stays
in `ERROR` writes no register. -/
theorem leavingErrorState : Obligations.LeavingErrorState := by
  intro s s' h hs
  refine ⟨fun hleft => ?left, fun hstays => ?stays⟩
  case left =>
    cases hs' : s'.state with
    | error => exact absurd hs' hleft
    | ready =>
      obtain ⟨hunconf, _⟩ := step_enters_ready h (by simp [hs]) hs'
      exact absurd (hs.symm.trans hunconf) (by decide)
    | unconf =>
      obtain ⟨rest, hcmd, rfl⟩ := step_enters_unconf h (by simp [hs]) hs'
      exact ⟨rfl, rfl, rest, hcmd⟩
  case stays => exact (registersKept_of_state_eq h (hstays.trans hs.symm) (by simp [hs])).cause

/-- Settles O10: with no event to take RQ is idle. -/
theorem idleWithoutEvents : Obligations.IdleWithoutEvents := fun _ => step_of_nil

/-! ### The order of the checks (R114) -/

/-- `CONFIG` in `UNCONF`: only the operand is left to judge. -/
theorem exec_config_of_unconf {s : State} (hs : s.state = .unconf) (t : Word) :
    exec (.config t) s = .next (if rateOf t ≤ 0 then raiseError .cfgTarget s else openSession t s) := by
  split
  · next hbad => exact exec_config_of_nonpos hs hbad
  · next hgood => exact exec_config_of_pos hs (not_le.1 hgood)

/-- `PROCESS` in `READY`: only the two rates are left to compare. -/
theorem exec_process_of_ready {s : State} (hs : s.state = .ready) {t : Word} (htrate : s.trate = some t)
    (ht : 1 ≤ rateOf t) (r : Word) (x : List Word) :
    exec (.process r x) s = .next (if rateOf r < rateOf t then raiseError .cfgRates s
      else emitBlock (outputBlock (rateOf r).toNat (rateOf t).toNat x) s) := by
  split
  · next hbad => exact exec_process_of_rate_lt hs htrate ht hbad x
  · next hgood => exact exec_process_of_rate_le hs htrate ht (not_lt.1 hgood) x

/-- Settles O21: one clause for each rank of R114, and `STOP`, which passes all checks. -/
theorem errorPriority : Obligations.ErrorPriority := by
  intro s p rest hcmd
  refine ⟨fun _ hdec => step_of_command hcmd hdec, fun hs hdec => step_of_error hs hcmd hdec,
    fun hs why hdec => ?illegal, fun hs r x hdec => ?processWithoutSession, fun hs t hdec => ?configWithinSession,
    fun hs t hdec => ?target, fun hs r x hdec t htrate ht => ?rates, fun _ hdec => ?stop⟩
  case illegal =>
    rw [step_of_illegal hcmd hdec, illegalPacket_of_ne_error (s := { s with cmd := rest }) hs]
    exact ⟨_, rfl, rfl, rfl⟩
  case processWithoutSession =>
    rw [step_of_command hcmd hdec, exec_process_of_unconf (s := { s with cmd := rest }) hs]
    exact ⟨_, rfl, rfl, rfl⟩
  case configWithinSession =>
    rw [step_of_command hcmd hdec, exec_config_of_ready (s := { s with cmd := rest }) hs]
    exact ⟨_, rfl, rfl, rfl⟩
  case target =>
    rw [step_of_command hcmd hdec, exec_config_of_unconf (s := { s with cmd := rest }) hs]
    refine ⟨_, rfl, fun hbad => ?_, fun hgood => ?_⟩
    · rw [if_pos hbad]
      exact ⟨rfl, rfl⟩
    · rw [if_neg (not_le.2 (one_pos.trans_le hgood))]
      exact ⟨rfl, rfl⟩
  case rates =>
    rw [step_of_command hcmd hdec, exec_process_of_ready (s := { s with cmd := rest }) hs htrate ht]
    refine ⟨_, rfl, fun hbad => ?_, fun hgood => ?_⟩
    · rw [if_pos hbad]
      exact ⟨rfl, rfl⟩
    · rw [if_neg (not_lt.2 hgood), emitBlock_state, emitBlock_cause]
      exact ⟨hs, rfl⟩
  case stop =>
    rw [step_of_command hcmd hdec, exec_stop]
    exact ⟨_, rfl, rfl, rfl, rfl⟩

end Sys2Proof.Machine
end

section
/-! PROOFS. Reset, runs and hazards (spec/70_reset_and_hazards.md, R130 to R138): the reset input, a session's blocks
in order, what an `ERR` packet tells of a run, and the boundary between two blocks. -/

namespace Sys2Proof.Machine

/-! ### The reset input (R130) -/

/-- Settles O9: a reset and `STOP` are one operation on the state from which the event has been taken. -/
theorem hardwareResetActsAsStop : Obligations.HardwareResetActsAsStop := by
  intro s rest hcmd
  rw [exec_stop]
  exact ⟨step_of_reset hcmd, step_of_reset hcmd⟩

/-! ### The blocks of a session (R133) -/

/-- The packets that a sequence of output blocks leaves on `OUTP`: one for each, the empty ones by `EMIT_EMPTY`
(R104). -/
def emittedBlocks (outs : List (List OutWord)) : List OutPacket :=
  (outs.filter fun out => !out.isEmpty || Config.emitEmpty).map blkPacket

theorem emittedBlocks_cons (out : List OutWord) (outs : List (List OutWord)) :
    emittedBlocks (out :: outs) = emittedBlocks [out] ++ emittedBlocks outs := by
  rw [emittedBlocks, ← List.singleton_append, List.filter_append, List.map_append]
  rfl

theorem emitBlock_eq_emittedBlocks (out : List OutWord) (s : State) :
    emitBlock out s = { s with outp := s.outp ++ emittedBlocks [out] } := by
  obtain ⟨hemits, heq⟩ | ⟨rfl, hkeep, heq⟩ := emitBlock_cases out s
  · have hpass : (!out.isEmpty || Config.emitEmpty) = true := by
      simpa [List.length_pos_iff] using hemits
    simp [heq, emittedBlocks, hpass, emit]
  · simp [heq, emittedBlocks, hkeep]

theorem decode_config_packet (t : Word) : decode [0x01000000, t] = .command (.config t) :=
  (decode_eq_config_iff _ t).2 ⟨0x01000000, rfl, by decide, by decide⟩

/-- A `PROCESS` at a supported rate, taken from the input in `READY`: no register is written. -/
theorem step_process_of_ready {s : State} (hs : s.state = .ready) {r t : Word} {x : List Word}
    (htrate : s.trate = some t) (ht : 1 ≤ rateOf t) (hr : rateOf t ≤ rateOf r) (hx : x.length < 2 ^ 24)
    {rest : List Event} (hcmd : s.cmd = .packet (encode (.process r x)) :: rest) :
    step s = .next { s with
      cmd := rest, outp := s.outp ++ emittedBlocks [outputBlock (rateOf r).toNat (rateOf t).toNat x] } := by
  rw [step_of_command hcmd (decodeOfEncode _ ((wellFormed_process_iff r x).2 hx)),
    exec_process_of_rate_le (s := { s with cmd := rest }) hs htrate ht hr, emitBlock_eq_emittedBlocks]

/-- By induction on the blocks: each step leaves the registers that the next one meets, and its packet behind. -/
theorem run_process_blocks {t : Word} (ht : 1 ≤ rateOf t) (blocks : List (Word × List Word))
    (hblocks : ∀ b ∈ blocks, rateOf t ≤ rateOf b.1 ∧ b.2.length < 2 ^ 24) {s : State} (hs : s.state = .ready)
    (htrate : s.trate = some t) (hcmd : s.cmd = blocks.map fun b => .packet (encode (.process b.1 b.2))) :
    run blocks.length s = .next { s with
      cmd := [],
      outp := s.outp ++ emittedBlocks (blocks.map fun b => outputBlock (rateOf b.1).toNat (rateOf t).toNat b.2) } := by
  induction blocks generalizing s with
  | nil =>
    rw [List.map_nil] at hcmd
    rw [List.length_nil, run_zero, ← hcmd]
    simp [emittedBlocks]
  | cons b blocks ih =>
    obtain ⟨⟨hrate, hlength⟩, hlater⟩ := List.forall_mem_cons.1 hblocks
    rw [List.length_cons, run_succ_of_next (step_process_of_ready hs htrate ht hrate hlength hcmd),
      List.map_cons, emittedBlocks_cons _ (blocks.map _), ← List.append_assoc]
    exact ih hlater hs htrate rfl

/-- A reset and a `CONFIG` of a legal rate open a session from any state, with nothing of it left in the
registers. -/
theorem run_reset_config {s : State} {t : Word} (ht : 1 ≤ rateOf t) {rest : List Event}
    (hcmd : s.cmd = .reset :: .packet [0x01000000, t] :: rest) (k : Nat) :
    run (k + 2) s = run k { trate := some t, state := .ready, cause := .none, cmd := rest, outp := s.outp } := by
  rw [run_succ_of_next (step_of_reset hcmd)]
  refine run_succ_of_next ?_ k
  rw [step_of_command rfl (decode_config_packet t), exec_config_of_pos rfl ht]
  rfl

/-- Settles O53: the session is opened, and the blocks follow one by one. -/
theorem sessionEmitsBlocksInOrder : Obligations.SessionEmitsBlocksInOrder := by
  intro s t blocks ht hblocks hcmd
  rw [Nat.add_comm, run_reset_config ht hcmd]
  exact run_process_blocks ht blocks hblocks rfl rfl rfl

/-! ### What an `ERR` packet tells (R134, R117) -/

theorem isErrPacket_errPacket (c : Cause) : isErrPacket (errPacket c) = true := rfl

/-- The tag of a `BLK` packet is `0x10` for a block of any length, its length being taken in 24 bits. -/
theorem isErrPacket_blkPacket (out : List OutWord) : isErrPacket (blkPacket out) = false := by
  have htag : ((BitVec.ofNat 16 (0x10 * 2 ^ 8 + out.length % 2 ^ 24 / 2 ^ 16)).extractLsb' 8 8).toNat = 0x10 := by
    rw [BitVec.extractLsb'_toNat, BitVec.toNat_ofNat, Nat.shiftRight_eq_div_pow]
    omega
  refine decide_eq_false fun herr => ?_
  rw [herr] at htag
  exact absurd htag (by decide)

@[simp] theorem wentWrong_emit (p : OutPacket) (s : State) :
    wentWrong (emit p s) = (wentWrong s || isErrPacket p) := by
  simp [wentWrong]

@[simp] theorem wentWrong_raiseError (c : Cause) (s : State) : wentWrong (raiseError c s) = true := by
  rw [raiseError, wentWrong_emit, isErrPacket_errPacket, Bool.or_true]

@[simp] theorem wentWrong_emitBlock (out : List OutWord) (s : State) :
    wentWrong (emitBlock out s) = wentWrong s := by
  obtain ⟨_, heq⟩ | ⟨_, _, heq⟩ := emitBlock_cases out s
  · rw [heq, wentWrong_emit, isErrPacket_blkPacket, Bool.or_false]
  · rw [heq]

/-- An error that `STATE` shows has its packet on `OUTP`. -/
def ErrorOnPort (s : State) : Prop := s.state = .error → wentWrong s = true

/-- At `s'` the run has gone wrong exactly if it had at `s` or shows `ERROR` now. -/
def WrongOnlyByError (s s' : State) : Prop := wentWrong s' = true ↔ wentWrong s = true ∨ s'.state = .error

/-- What emits no `ERR` packet and does not enter `ERROR` tells nothing new. -/
theorem wrongOnlyByError_of_quiet {s s' : State} (hs : ErrorOnPort s) (hport : wentWrong s' = wentWrong s)
    (hstate : s'.state = .error → s.state = .error) : WrongOnlyByError s s' := by
  rw [WrongOnlyByError, hport]
  exact (or_iff_left_of_imp fun herr => hs (hstate herr)).symm

theorem wrongOnlyByError_raiseError (c : Cause) (s : State) : WrongOnlyByError s (raiseError c s) := by
  simp [WrongOnlyByError]

theorem wrongOnlyByError_illegalPacket {s : State} (hs : ErrorOnPort s) : WrongOnlyByError s (illegalPacket s) := by
  obtain ⟨_, hdrop⟩ | ⟨_, hraise⟩ := illegalPacket_cases s
  · rw [hdrop]
    exact wrongOnlyByError_of_quiet hs rfl id
  · rw [hraise]
    exact wrongOnlyByError_raiseError .illegal s

theorem wrongOnlyByError_discardSession {s : State} (hs : ErrorOnPort s) : WrongOnlyByError s (discardSession s) :=
  wrongOnlyByError_of_quiet hs rfl nofun

theorem wrongOnlyByError_exec {i : Instr} {s s' : State} (hs : ErrorOnPort s) (h : exec i s = .next s') :
    WrongOnlyByError s s' := by
  obtain ⟨_, _, rfl⟩ | ⟨_, rfl⟩ | ⟨_, t, _, ⟨_, rfl⟩ | ⟨_, rfl⟩⟩ | ⟨_, _, _, rfl⟩ |
    ⟨_, _, _, _, rfl⟩ | ⟨_, _, _, _, _, _, _, ⟨_, rfl⟩ | ⟨_, rfl⟩⟩ := exec_next_cases i s s' h
  · exact wrongOnlyByError_of_quiet hs rfl id
  · exact wrongOnlyByError_discardSession hs
  · exact wrongOnlyByError_raiseError .cfgTarget s
  · exact wrongOnlyByError_of_quiet hs rfl nofun
  · exact wrongOnlyByError_raiseError .protocol s
  · exact wrongOnlyByError_raiseError .protocol s
  · exact wrongOnlyByError_raiseError .cfgRates s
  · exact wrongOnlyByError_of_quiet hs (wentWrong_emitBlock _ s) (emitBlock_state _ s ▸ id)

theorem wrongOnlyByError_step {s s' : State} (hs : ErrorOnPort s) (h : step s = .next s') :
    WrongOnlyByError s s' := by
  have htaken (rest : List Event) : ErrorOnPort { s with cmd := rest } := hs
  obtain ⟨_, hstep⟩ | ⟨rest, _, hstep⟩ | ⟨p, rest, i, _, _, hstep⟩ | ⟨p, rest, why, _, _, hstep⟩ :=
    step_eq_of_event s
  · obtain rfl := Host.Outcome.next.inj (hstep ▸ h)
    exact wrongOnlyByError_of_quiet hs rfl id
  · obtain rfl := Host.Outcome.next.inj (hstep ▸ h)
    exact wrongOnlyByError_discardSession (htaken rest)
  · exact wrongOnlyByError_exec (s := { s with cmd := rest }) (htaken rest) (hstep ▸ h)
  · obtain rfl := Host.Outcome.next.inj (hstep ▸ h)
    exact wrongOnlyByError_illegalPacket (htaken rest)

/-- Some state of the first `k` steps from `s`, its start included, is `ERROR`. -/
def ShowsError (k : Nat) (s : State) : Prop := ∃ j, j ≤ k ∧ ∃ u, run j s = .next u ∧ u.state = .error

theorem showsError_of_error {s : State} (hs : s.state = .error) (k : Nat) : ShowsError k s :=
  ⟨0, Nat.zero_le k, s, run_zero s, hs⟩

theorem showsError_succ_iff {s u : State} (h : step s = .next u) (k : Nat) :
    ShowsError (k + 1) s ↔ s.state = .error ∨ ShowsError k u := by
  constructor
  · rintro ⟨j, hj, v, hrun, hv⟩
    cases j with
    | zero =>
      obtain rfl := Host.Outcome.next.inj hrun
      exact .inl hv
    | succ j =>
      rw [run_succ_of_next h] at hrun
      exact .inr ⟨j, Nat.le_of_succ_le_succ hj, v, hrun, hv⟩
  · rintro (hs | ⟨j, hj, v, hrun, hv⟩)
    · exact showsError_of_error hs (k + 1)
    · exact ⟨j + 1, Nat.succ_le_succ hj, v, by rwa [run_succ_of_next h], hv⟩

/-- By induction on the number of steps, over starts that may have gone wrong before. -/
theorem wentWrong_run_iff (k : Nat) {s s' : State} (hs : ErrorOnPort s) (h : run k s = .next s') :
    wentWrong s' = true ↔ wentWrong s = true ∨ ShowsError k s := by
  induction k generalizing s with
  | zero =>
    obtain rfl := Host.Outcome.next.inj h
    refine (or_iff_left_of_imp ?_).symm
    rintro ⟨j, hj, u, hrun, hu⟩
    obtain rfl := Nat.le_zero.1 hj
    obtain rfl := Host.Outcome.next.inj hrun
    exact hs hu
  | succ k ih =>
    obtain ⟨u, hu, hk⟩ := run_succ_next_cases h
    have hstep : wentWrong u = true ↔ wentWrong s = true ∨ u.state = .error := wrongOnlyByError_step hs hu
    have hlater : u.state = .error → ShowsError k u := fun herr => showsError_of_error herr k
    calc wentWrong s' = true
        ↔ wentWrong u = true ∨ ShowsError k u := ih (fun herr => hstep.2 (.inr herr)) hk
      _ ↔ wentWrong s = true ∨ u.state = .error ∨ ShowsError k u := by rw [hstep, or_assoc]
      _ ↔ wentWrong s = true ∨ ShowsError k u := by rw [or_iff_right_of_imp hlater]
      _ ↔ wentWrong s = true ∨ s.state = .error ∨ ShowsError k u := by
        rw [← or_assoc, or_iff_left_of_imp hs]
      _ ↔ wentWrong s = true ∨ ShowsError (k + 1) s := by rw [showsError_succ_iff hu]

/-- Settles O55: a start with nothing emitted has not gone wrong yet. -/
theorem wentWrongIffErrorEntered : Obligations.WentWrongIffErrorEntered := by
  intro k s s' hout hs h
  have hclean : wentWrong s = false := by rw [wentWrong, hout, List.any_nil]
  have hrun := wentWrong_run_iff k (fun herr => absurd herr hs) h
  rwa [hclean, or_iff_right Bool.false_ne_true] at hrun

/-! ### The boundary between two blocks (R138) -/

/-- Where `n` input samples fill exactly `m` output samples, `LEN` counts them apart from those that follow. -/
theorem outLen_add_of_mul_eq {n m r t : Nat} (hr : 0 < r) (hfill : n * t = m * r) (k : Nat) :
    outLen (n + k) r t = m + outLen k r t := by
  have hdividend : 2 * (n + k) * t + r = 2 * k * t + r + m * (2 * r) := by
    calc 2 * (n + k) * t + r = 2 * k * t + r + 2 * (n * t) := by ring
      _ = 2 * k * t + r + m * (2 * r) := by rw [hfill]; ring
  rw [outLen, outLen, hdividend, Nat.add_mul_div_right _ _ (by omega), Nat.add_comm]

/-- The same fact with the two rates swapped: past the boundary the index goes on at the second block's start. -/
theorem rawIndex_add_of_mul_eq {n m r t : Nat} (ht : 0 < t) (hfill : n * t = m * r) (i : Nat) :
    rawIndex (m + i) r t = n + rawIndex i r t :=
  outLen_add_of_mul_eq ht hfill.symm i

theorem readIn_append_left {x : List Word} {k : Nat} (hk : k < x.length) (y : List Word) :
    readIn (x ++ y) k = readIn x k :=
  List.getD_append _ _ _ _ hk

theorem readIn_append_right (x y : List Word) (k : Nat) : readIn (x ++ y) (x.length + k) = readIn y k := by
  rw [readIn, readIn, List.getD_append_right _ _ _ _ (Nat.le_add_right _ _), Nat.add_sub_cancel_left]

/-- At a supported rate the clamp never acts, so the block is read at the unclamped index (R85 (c)). -/
theorem outputBlock_eq_map_rawIndex {r t : Nat} (ht : 0 < t) (hle : t ≤ r) (x : List Word) :
    outputBlock r t x =
      (List.range (outLen x.length r t)).map fun i => toI16 (qnt (readIn x (rawIndex i r t))) := by
  refine List.map_congr_left fun i hi => ?_
  rw [srcIndex_eq_rawIndex ht hle (List.mem_range.1 hi)]

/-- Settles O42: the output positions before the boundary read the first block where it alone is read, and those
after it read the second one likewise. -/
theorem seamlessSplit : Obligations.SeamlessSplit := by
  intro r t m x y ht hle hfill
  have hr : 0 < r := by omega
  have hfirst : outLen x.length r t = m := by
    rw [← Nat.add_zero x.length, outLen_add_of_mul_eq hr hfill, outLen_zero, Nat.add_zero]
  rw [outputBlock_eq_map_rawIndex ht hle, outputBlock_eq_map_rawIndex ht hle, outputBlock_eq_map_rawIndex ht hle,
    List.length_append, outLen_add_of_mul_eq hr hfill, hfirst, List.range_add, List.map_append, List.map_map]
  congr 1
  · refine List.map_congr_left fun i hi => ?_
    have hi' : i < outLen x.length r t := by rwa [hfirst, ← List.mem_range]
    rw [readIn_append_left (rawIndex_lt ht hle hi')]
  · refine List.map_congr_left fun i _ => ?_
    rw [Function.comp_apply, rawIndex_add_of_mul_eq ht hfill, readIn_append_right]

end Sys2Proof.Machine
end
